-- ==== Sys2Proof/Word.lean ====
section
/-! DEFINITION. The word types of the converter, one for each width of 00_scope.md R9. -/

namespace Sys2Proof

/-- A Y, U or V sample, an output channel, one byte of the source memory (`SAMPLE_W` = 8, R9). -/
abbrev Byte := BitVec 8

/-- A coordinate of a CONVERT command (`COORD_W` = 16, R9). -/
abbrev Coord := BitVec 16

/-- A configuration register, an RGBA result, a source-memory address (`REG_W`, `PIX_W`, `ADDR_W` = 32, R9). -/
abbrev Word := BitVec 32

/-- The `REG` field of a CFGW or CFGR command: 16 indices (`N_REGS`, R9). -/
abbrev RegIndex := BitVec 4

/-- One command word (`CMD_W` = 64, R9, R91). -/
abbrev CmdWord := BitVec 64

/-- One response word (`RSP_W` = 64, R9, R97). -/
abbrev RspWord := BitVec 64

end Sys2Proof
end

