-- ==== Sys2Proof/Syntax.lean ====
section
/-! DEFINITION. The commands of the block, one constructor for each row of spec/opcode_table.json (30_encoding.md R90).
An illegal word is no command (R100, R101): it has no constructor, and the decoder rejects it. -/

namespace Sys2Proof

/-- The three commands with their operands as the plain unsigned fields R96 assembles. A reserved register index is a
legal operand: it decodes and is refused at execution (R101). -/
inductive Instr where
  /-- `CONVERT x, y`: convert one pixel (R93, R141). -/
  | convert (x y : Coord)
  /-- `CFGW reg, data`: write a configuration register (R94, R121). -/
  | cfgw (reg : RegIndex) (data : Word)
  /-- `CFGR reg`: read a configuration register (R95, R124). -/
  | cfgr (reg : RegIndex)
  deriving DecidableEq, Repr

end Sys2Proof
end

