-- ==== Sys2Proof/WellFormed.lean ====
section
/-! DEFINITION. Well-formedness. The operands of `Instr` have exactly the widths of the encoding, so every `Instr` is
well formed; the checks are those on an assembler line, whose operands are integers written by a programmer and whose
out-of-range values are assembly errors (30_encoding.md R103). -/

namespace Sys2Proof

/-- One assembler line with its operands as written (R103). `dword` is the raw 64-bit word. -/
inductive AsmLine where
  | convert (x y : Nat)
  | cfgw (reg imm : Nat)
  | cfgr (reg : Nat)
  | dword (imm : Nat)
  deriving DecidableEq, Repr

/-- The operand ranges of R103: x and y in 0..65535, an index r0..r15, imm32 and imm64 in their width. -/
def AsmLine.wf : AsmLine → Bool
  | .convert x y => decide (x < 2 ^ 16) && decide (y < 2 ^ 16)
  | .cfgw reg imm => decide (reg < 16) && decide (imm < 2 ^ 32)
  | .cfgr reg => decide (reg < 16)
  | .dword imm => decide (imm < 2 ^ 64)

/-- A command as the assembler line that spells it. -/
def Instr.toLine : Instr → AsmLine
  | .convert x y => .convert x.toNat y.toNat
  | .cfgw reg data => .cfgw reg.toNat data.toNat
  | .cfgr reg => .cfgr reg.toNat

/-- A command is well formed when the line that spells it is. -/
def Instr.wf (i : Instr) : Bool := i.toLine.wf

end Sys2Proof
end

