-- ==== Sys2Proof/Decode.lean ====
section
/-! DEFINITION. The decoder of 30_encoding.md R101, total on every 64-bit word, the opcode map of R99 and the encoder
written from the formats of R92. -/

namespace Sys2Proof

/-- Why a word is illegal (R100). Every reason is answered with the same `ERR_OPCODE`. -/
inductive DecodeError where
  /-- `OP` is 0x0 or 0x4 to 0xF. -/
  | opcode
  /-- `OP` = 0x1 with a bit of [59:32] set. -/
  | convertZeroField
  /-- `OP` = 0x2 with a bit of [59:36] set. -/
  | cfgwZeroField
  /-- `OP` = 0x3 with a bit of [59:36] or [31:0] set. -/
  | cfgrZeroField
  deriving DecidableEq, Repr

/-- `c[63:60]` (R92). -/
def opField (c : CmdWord) : BitVec 4 := c.extractLsb' 60 4

/-- `c[59:32]`, the zero field of format C (R92). -/
def zeroFieldC (c : CmdWord) : BitVec 28 := c.extractLsb' 32 28

/-- `c[59:36]`, the zero field of formats W and R (R92). -/
def zeroFieldWR (c : CmdWord) : BitVec 24 := c.extractLsb' 36 24

/-- `c[35:32]` (R94, R95). -/
def regField (c : CmdWord) : RegIndex := c.extractLsb' 32 4

/-- `c[31:0]` (R94); the low zero field of format R (R95). -/
def dataField (c : CmdWord) : Word := c.extractLsb' 0 32

/-- `c[15:0]` (R93). -/
def xField (c : CmdWord) : Coord := c.extractLsb' 0 16

/-- `c[31:16]` (R93). -/
def yField (c : CmdWord) : Coord := c.extractLsb' 16 16

/-- The decoder of R101. -/
def decode (c : CmdWord) : Except DecodeError Instr :=
  if opField c = 0x1 then
    if zeroFieldC c = 0 then .ok (.convert (xField c) (yField c)) else .error .convertZeroField
  else if opField c = 0x2 then
    if zeroFieldWR c = 0 then .ok (.cfgw (regField c) (dataField c)) else .error .cfgwZeroField
  else if opField c = 0x3 then
    if zeroFieldWR c = 0 ∧ dataField c = 0 then .ok (.cfgr (regField c)) else .error .cfgrZeroField
  else .error .opcode

/-- The word of a command, field by field from bit 63 down, as R92's table lists them. -/
def encode : Instr → CmdWord
  | .convert x y => 0x1#4 ++ 0#28 ++ y ++ x
  | .cfgw reg data => 0x2#4 ++ 0#24 ++ reg ++ data
  | .cfgr reg => 0x3#4 ++ 0#24 ++ reg ++ 0#32

/-- One row of the opcode map (R99). -/
structure OpcodeRow where
  mnemonic : String
  matchBits : CmdWord
  mask : CmdWord
  deriving DecidableEq, Repr

/-- The opcode map of R99. -/
def opcodeTable : List OpcodeRow :=
  [ ⟨"CONVERT", 0x1000000000000000, 0xFFFFFFFF00000000⟩,
    ⟨"CFGW", 0x2000000000000000, 0xFFFFFFF000000000⟩,
    ⟨"CFGR", 0x3000000000000000, 0xFFFFFFF0FFFFFFFF⟩ ]

/-- A word matches a row when `c & mask = match` (R99). -/
def OpcodeRow.accepts (r : OpcodeRow) (c : CmdWord) : Bool := c &&& r.mask == r.matchBits

/-- The row of the opcode map a command belongs to. -/
def Instr.row : Instr → OpcodeRow
  | .convert _ _ => ⟨"CONVERT", 0x1000000000000000, 0xFFFFFFFF00000000⟩
  | .cfgw _ _ => ⟨"CFGW", 0x2000000000000000, 0xFFFFFFF000000000⟩
  | .cfgr _ => ⟨"CFGR", 0x3000000000000000, 0xFFFFFFF0FFFFFFFF⟩

/-- What the decoder reads from a word of `nbits` bits numbered as spec/opcode_table.json numbers them: the table's
bit 0 is bit 0 of the one 64-bit word a command is (R91, R102), and the bits above `nbits` are 0. -/
def decodeTableWord (nbits w : Nat) : Option Instr :=
  if nbits ≤ 64 ∧ w < 2 ^ nbits then (decode (BitVec.ofNat 64 w)).toOption else none

end Sys2Proof
end

