-- ==== Sys2Proof/Machine/State.lean ====
section
/-! DEFINITION. The state of the block (10_state.md R30), the source memory it reads, which is a parameter of the block
and no part of its state, the two together as one state of the system, the names of the registers and of the error codes,
and the reasons a step can stop. -/

namespace Sys2Proof.Machine

/-- The twelve configuration registers, by the names of R34. -/
inductive Reg where
  | width | height | yBase | yRowStride | uBase | vBase | uvPixelStride | uvRowStride
  | ySize | uSize | vSize | faultStatus
  deriving DecidableEq, Repr

/-- The configuration register file: each register is 32 bits (R33, R34). The reserved indices 0xC to 0xF name no
register (R47) and have no field. -/
structure RegFile where
  /-- 0x0 `WIDTH`: [15:0] the width, [31:16] reserved (R35). -/
  width : Word
  /-- 0x1 `HEIGHT`: [15:0] the height, [31:16] reserved (R36). -/
  height : Word
  /-- 0x2 `Y_BASE` (R37). -/
  yBase : Word
  /-- 0x3 `Y_ROW_STRIDE` (R38). -/
  yRowStride : Word
  /-- 0x4 `U_BASE` (R39). -/
  uBase : Word
  /-- 0x5 `V_BASE` (R40). -/
  vBase : Word
  /-- 0x6 `UV_PIXEL_STRIDE` (R41). -/
  uvPixelStride : Word
  /-- 0x7 `UV_ROW_STRIDE` (R42). -/
  uvRowStride : Word
  /-- 0x8 `Y_SIZE` (R43). -/
  ySize : Word
  /-- 0x9 `U_SIZE` (R44). -/
  uSize : Word
  /-- 0xA `V_SIZE` (R45). -/
  vSize : Word
  /-- 0xB `FAULT_STATUS`: [6:1] sticky flags, the rest reserved (R46). -/
  faultStatus : Word
  deriving DecidableEq, Repr

/-- The error codes 0x1 to 0x6 of R98. -/
inductive Err where
  | opcode | reg | config | coord | bounds | bus
  deriving DecidableEq, Repr

/-- The status of a response: `OK`, or one of the six errors (R98). The codes 0x7 to 0xF are no value of this type. -/
inductive Status where
  | ok
  | err (e : Err)
  deriving DecidableEq, Repr

/-- What the source memory answers to a one-byte read (R63): a byte, `BusError`, or nothing ever (R238). -/
inductive MemReply where
  | byte (b : Byte)
  | busError
  | never
  deriving DecidableEq, Repr

/-- The state of the block: exactly the record of R30. -/
structure Block where
  /-- The configuration registers (R33). -/
  cfg : RegFile
  /-- Commands accepted and not yet executed, oldest first (R50). -/
  cmdQueue : List CmdWord
  /-- Responses produced and not yet taken, oldest first (R50). -/
  rspQueue : List RspWord
  deriving DecidableEq, Repr

/-- The source memory: no part of the block's state but a parameter, read through `MemRead` (R30, 20_memory.md R63).
It is the environment's, written by the host only (R53). -/
structure SourceMemory where
  /-- The bytes of the source memory (R60): addresses strictly rising and below 2^32; an address not listed here
  answers as `Memory.unlisted` says. -/
  mem : List Host.Cell
  /-- The addresses whose read the platform never answers (R63, R238): strictly rising, below 2^32, none of them
  listed in `mem`. -/
  unanswered : List Nat
  deriving DecidableEq, Repr

/-- A state of the system: the block, and the source memory that is its parameter. `step` is a function of the two
(R15); `Block.step` is the block's own, with the memory as an argument (notes/assumptions/1.md). -/
structure State extends Block, SourceMemory where
  deriving DecidableEq, Repr

/-- The one fault of the model. -/
inductive Fault where
  /-- Raised by CONVERT when the platform never answers one of its three plane reads: the command stays unfinished
  and every later command unexecuted (R63, R238). A stuck state; safe. -/
  | readNeverAnswered
  deriving DecidableEq, Repr

/-- The refusals of the model. -/
inductive Refusal where
  /-- Raised by `exec` for a command that has no meaning yet. Safe. No arm answers it. -/
  | notModelled (mnemonic : String)
  /-- Raised by the host's move of changing the source memory at an address that a CONVERT now in `cmdQueue` reads: a
  write the host must not make, of which the spec has a model take no transition (R235, R72 item 6, D16,
  93_implementation_defined.md section 1; notes/assumptions/9.md). Safe. No command raises it. -/
  | planeWriteDuringConvert
  /-- Raised by `serve`, the one-command view of R15, on a block whose queues are not idle. Safe. No command raises it. -/
  | blockNotIdle
  deriving DecidableEq, Repr

/-- Every register 0 (R52). -/
def RegFile.reset : RegFile where
  width := 0
  height := 0
  yBase := 0
  yRowStride := 0
  uBase := 0
  vBase := 0
  uvPixelStride := 0
  uvRowStride := 0
  ySize := 0
  uSize := 0
  vSize := 0
  faultStatus := 0

/-- The block right after reset (R52, R230): registers 0, queues empty. -/
def Block.reset : Block where
  cfg := RegFile.reset
  cmdQueue := []
  rspQueue := []

/-- The block after reset, beside a source memory that lists nothing (notes/assumptions/2.md, 3.md). -/
def State.reset : State where
  toBlock := Block.reset
  mem := []
  unanswered := []

end Sys2Proof.Machine
end

