-- ==== Sys2Proof/Machine/Operands.lean ====
section
/-! DEFINITION. The register operand of CFGW and CFGR: index to register (10_state.md R33, R34, R47), reading and
writing one register, and which bits a write keeps (R35, R36). -/

namespace Sys2Proof.Machine

/-- The register an index names (R34); the reserved indices 0xC to 0xF name none (R47). -/
def Reg.ofIndex (i : RegIndex) : Option Reg :=
  match i.toNat with
  | 0x0 => some .width
  | 0x1 => some .height
  | 0x2 => some .yBase
  | 0x3 => some .yRowStride
  | 0x4 => some .uBase
  | 0x5 => some .vBase
  | 0x6 => some .uvPixelStride
  | 0x7 => some .uvRowStride
  | 0x8 => some .ySize
  | 0x9 => some .uSize
  | 0xA => some .vSize
  | 0xB => some .faultStatus
  | _ => none

/-- The index of a register (R34). -/
def Reg.index : Reg → RegIndex
  | .width => 0x0
  | .height => 0x1
  | .yBase => 0x2
  | .yRowStride => 0x3
  | .uBase => 0x4
  | .vBase => 0x5
  | .uvPixelStride => 0x6
  | .uvRowStride => 0x7
  | .ySize => 0x8
  | .uSize => 0x9
  | .vSize => 0xA
  | .faultStatus => 0xB

/-- Where register `r` lies from the block's base, on a platform that maps the block into an address space (R33). -/
def Reg.byteOffset (r : Reg) : Nat := 4 * r.index.toNat

/-- `cfg[r]` (R33). -/
def RegFile.get (f : RegFile) : Reg → Word
  | .width => f.width
  | .height => f.height
  | .yBase => f.yBase
  | .yRowStride => f.yRowStride
  | .uBase => f.uBase
  | .vBase => f.vBase
  | .uvPixelStride => f.uvPixelStride
  | .uvRowStride => f.uvRowStride
  | .ySize => f.ySize
  | .uSize => f.uSize
  | .vSize => f.vSize
  | .faultStatus => f.faultStatus

/-- `cfg[r] <- v` (R12, R33). -/
def RegFile.set (f : RegFile) (r : Reg) (v : Word) : RegFile :=
  match r with
  | .width => { f with width := v }
  | .height => { f with height := v }
  | .yBase => { f with yBase := v }
  | .yRowStride => { f with yRowStride := v }
  | .uBase => { f with uBase := v }
  | .vBase => { f with vBase := v }
  | .uvPixelStride => { f with uvPixelStride := v }
  | .uvRowStride => { f with uvRowStride := v }
  | .ySize => { f with ySize := v }
  | .uSize => { f with uSize := v }
  | .vSize => { f with vSize := v }
  | .faultStatus => { f with faultStatus := v }

/-- What a CFGW of `data` leaves in register `r`, `none` where the register is read-only (R121): WIDTH and HEIGHT keep
`zext_32(data[15:0])`, the other writable registers keep `data`, FAULT_STATUS takes no write (R46). -/
def Reg.written (r : Reg) (data : Word) : Option Word :=
  match r with
  | .width | .height => some ((data.extractLsb' 0 16).setWidth 32)
  | .faultStatus => none
  | _ => some data

/-- `cfg[i]` by index, `none` at a reserved index (R33, R47). -/
def RegFile.read (f : RegFile) (i : RegIndex) : Option Word := (Reg.ofIndex i).map f.get

/-- The register file after a CFGW of `data` to index `i`, `none` where R121 refuses it: a reserved index or the
read-only FAULT_STATUS. -/
def RegFile.write (f : RegFile) (i : RegIndex) (data : Word) : Option RegFile :=
  match Reg.ofIndex i with
  | none => none
  | some r => (r.written data).map (f.set r)

end Sys2Proof.Machine
end

