-- ==== Sys2Proof/Config.lean ====
section
/-! DEFINITION. What an implementation fixes and no rule of the spec does: the two queue depths (00_scope.md R9, D26).
Each is at least 1, so each is one more than a natural number with no body: nothing can be proved of its value.
The lane count, the latency and the reset pin's polarity are unobservable (R213, R240) and stand nowhere in the model
(notes/assumptions/5.md, 15.md). -/

namespace Sys2Proof

/-- `REQ_DEPTH - 1` (R9). Free: notes/assumptions/6.md. -/
opaque Config.reqSpare : Nat

/-- `RSP_DEPTH - 1` (R9). Free: notes/assumptions/6.md. -/
opaque Config.rspSpare : Nat

/-- `REQ_DEPTH`, at least 1 (R9). -/
def Config.reqDepth : Nat := Config.reqSpare + 1

/-- `RSP_DEPTH`, at least 1 (R9). -/
def Config.rspDepth : Nat := Config.rspSpare + 1

end Sys2Proof
end

