-- ==== Sys2Proof/Machine/Flags.lean ====
section
/-! DEFINITION. The block has no condition codes (10_state.md R48). Its only flags are the sticky error flags of
`FAULT_STATUS` (R46), set here. -/

namespace Sys2Proof.Machine

/-- The status code of an error (30_encoding.md R98). -/
def Err.code : Err → BitVec 4
  | .opcode => 0x1
  | .reg => 0x2
  | .config => 0x3
  | .coord => 0x4
  | .bounds => 0x5
  | .bus => 0x6

/-- The status code of a response (R98). -/
def Status.code : Status → BitVec 4
  | .ok => 0x0
  | .err e => e.code

/-- `1 << E`: bit `code` is the sticky flag of status `code` (R46, R203). -/
def Err.stickyFlag (e : Err) : Word := 1#32 <<< e.code.toNat

/-- `FAULT_STATUS <- FAULT_STATUS | (1 << E)` (R203). -/
def RegFile.setSticky (f : RegFile) (e : Err) : RegFile :=
  { f with faultStatus := f.faultStatus ||| e.stickyFlag }

/-- The sticky flag of `e` as `FAULT_STATUS` holds it (R46). -/
def RegFile.sticky (f : RegFile) (e : Err) : Bool := f.faultStatus.getLsbD e.code.toNat

end Sys2Proof.Machine
end

