-- ==== Sys2Proof/Machine/Ops.lean ====
section
/-! DEFINITION. The named operations the meanings share: the one-byte memory read, the response, taking an error
(the block's one exception mechanism, 60_exceptions.md R200), and the two queues. -/

namespace Sys2Proof.Machine

/-! ### The source memory -/

/-- What an address that `State.mem` does not list holds: no byte, so a read of it is answered with `BusError`
(20_memory.md R63; notes/assumptions/2.md). -/
def Memory.unlisted : Option Byte := none

/-- The byte listed at an address. -/
def Memory.lookup : List Host.Cell → Nat → Option Byte
  | [], _ => Memory.unlisted
  | (k, b) :: rest, a => if k = a then some b else Memory.lookup rest a

/-- A cell in front of a list, or no cell where there is no byte to list. -/
def Memory.cons (a : Nat) (v : Option Byte) (cells : List Host.Cell) : List Host.Cell :=
  match v with
  | some b => (a, b) :: cells
  | none => cells

/-- The memory with `v` at address `a`; `none`, which is what an unlisted address holds, removes the entry. -/
def Memory.put (a : Nat) (v : Option Byte) : List Host.Cell → List Host.Cell
  | [] => Memory.cons a v []
  | (k, b) :: rest =>
    if k < a then (k, b) :: Memory.put a v rest
    else if k = a then Memory.cons a v rest
    else Memory.cons a v ((k, b) :: rest)

/-- A strictly rising list of addresses with `a` in it. -/
def Addrs.insert (a : Nat) : List Nat → List Nat
  | [] => [a]
  | k :: rest => if k < a then k :: Addrs.insert a rest else if k = a then k :: rest else a :: k :: rest

/-- A strictly rising list of addresses without `a`. -/
def Addrs.remove (a : Nat) : List Nat → List Nat
  | [] => []
  | k :: rest => if k = a then rest else k :: Addrs.remove a rest

/-- The canonical form of the source memory: addresses strictly rising and below 2^32 (R60) in both lists, and no
address in both. -/
abbrev Memory.wf (cells : List Host.Cell) (unanswered : List Nat) : Prop :=
  cells.Pairwise (fun c d => c.1 < d.1) ∧ (∀ c ∈ cells, c.1 < 2 ^ 32) ∧
  unanswered.Pairwise (· < ·) ∧ (∀ a ∈ unanswered, a < 2 ^ 32) ∧ ∀ c ∈ cells, c.1 ∉ unanswered

/-- `MemRead(addr, 1)` (R63): a byte, `BusError`, or no answer ever (R238). It changes nothing (R64, R69). -/
def SourceMemory.memRead (m : SourceMemory) (a : Nat) : MemReply :=
  if a ∈ m.unanswered then .never
  else match Memory.lookup m.mem a with
    | some b => .byte b
    | none => .busError

/-- The source memory made to answer `r` at address `a`: the host's write of a byte, or the platform's change of how
the address answers (10_state.md R53, R241). No command does this (R64). -/
def setReply (a : Word) (r : MemReply) (s : State) : State :=
  match r with
  | .byte b =>
    { s with mem := Memory.put a.toNat (some b) s.mem, unanswered := Addrs.remove a.toNat s.unanswered }
  | .busError =>
    { s with mem := Memory.put a.toNat none s.mem, unanswered := Addrs.remove a.toNat s.unanswered }
  | .never =>
    { s with mem := Memory.put a.toNat none s.mem, unanswered := Addrs.insert a.toNat s.unanswered }

/-! ### Responses and errors -/

/-- `{status[3:0], 28'b0, data[31:0]}` (30_encoding.md R97). -/
def responseWord (st : Status) (data : Word) : RspWord := st.code ++ 0#28 ++ data

/-- The `STATUS` field of a response, bits [63:60] (R97). -/
def rspStatus (r : RspWord) : BitVec 4 := r.extractLsb' 60 4

/-- The zero field of a response, bits [59:32] (R97). -/
def rspZero (r : RspWord) : BitVec 28 := r.extractLsb' 32 28

/-- The `DATA` field of a response, bits [31:0] (R97). -/
def rspData (r : RspWord) : Word := r.extractLsb' 0 32

/-- `respond(status, data)`: append one response word (R12, R97). -/
def respond (st : Status) (data : Word) (s : State) : State :=
  { s with rspQueue := s.rspQueue ++ [responseWord st data] }

/-- `raise E` (R203), the one way a command takes an error: answer status `E` with DATA 0 and set the sticky bit of
`E`. No state is saved, no mode changes and control goes nowhere (R208); there is no return from it (R209). -/
def raise (e : Err) (s : State) : State :=
  respond (.err e) 0 { s with cfg := s.cfg.setSticky e }

/-- What an illegal word does when it is executed (R100). -/
def raiseIllegal (s : State) : State := raise .opcode s

/-! ### The queues -/

/-- `rspQueue` holds `RSP_DEPTH` responses (70_reset_and_hazards.md R237). -/
def rspFull (s : State) : Bool := decide (Config.rspDepth ≤ s.rspQueue.length)

/-- `cmdQueue` holds `REQ_DEPTH` commands (R237). -/
def cmdFull (s : State) : Bool := decide (Config.reqDepth ≤ s.cmdQueue.length)

/-- The command the block executes next, with the state it is taken from: the head of `cmdQueue` (10_state.md R50);
none while `rspQueue` is full (R237) or no command waits (60_exceptions.md R217). -/
def nextCommand (s : State) : Option (CmdWord × State) :=
  if rspFull s then none
  else match s.cmdQueue with
    | [] => none
    | w :: rest => some (w, { s with cmdQueue := rest })

/-- The state with `w` as the command executed next: `w` in the place of the head of `cmdQueue`, and every response
taken, since the block executes nothing while `rspQueue` is full (R237) and of a depth that is only known to be at least
1 the empty queue alone is sure to have room. -/
def placeCommand (w : CmdWord) (s : State) : State :=
  { s with cmdQueue := w :: s.cmdQueue.tail, rspQueue := [] }

end Sys2Proof.Machine
end

