-- ==== Sys2Proof/Machine/ConfigCommands.lean ====
section
/-! DEFINITION. The configuration family, 40_config.md: CFGW and CFGR. Neither reads the source memory (R120). -/

namespace Sys2Proof.Machine

/-- `CFGW reg, data` (R121): `ERR_REG` at the read-only or a reserved index, else the write and `OK` with DATA 0. -/
def execCfgw (reg : RegIndex) (data : Word) (s : State) : Host.Outcome State Fault Refusal :=
  match s.cfg.write reg data with
  | none => .next (raise .reg s)
  | some f => .next (respond .ok 0 { s with cfg := f })

/-- `CFGR reg` (R124): `ERR_REG` at a reserved index, else `OK` with the register's value. Reading FAULT_STATUS clears
nothing (R125). -/
def execCfgr (reg : RegIndex) (s : State) : Host.Outcome State Fault Refusal :=
  match s.cfg.read reg with
  | none => .next (raise .reg s)
  | some v => .next (respond .ok v s)

end Sys2Proof.Machine
end

