-- ==== Sys2Proof/Machine/Csc.lean ====
section
/-! DEFINITION. The CSC matrix engine, the saturator and the packer, 42_csc.md. The coefficients are the literals of
R171 (C1), each product truncated on its own (R172), the sums exact integers (R176). -/

namespace Sys2Proof.Machine

/-- The red chroma term of V (R172). -/
def tRV (v : Byte) : Nat := (v.toNat * 1436) >>> 10

/-- The green chroma term of U (R172). -/
def tGU (u : Byte) : Nat := (u.toNat * 46549) >>> 17

/-- The green chroma term of V (R172). -/
def tGV (v : Byte) : Nat := (v.toNat * 93604) >>> 17

/-- The blue chroma term of U (R172). -/
def tBU (u : Byte) : Nat := (u.toNat * 1814) >>> 10

/-- Red before the clamp (R173). -/
def red (y v : Byte) : Int := (y.toNat : Int) + tRV v - 179

/-- Green before the clamp (R174). -/
def green (y u v : Byte) : Int := (y.toNat : Int) - tGU u + 44 - tGV v + 91

/-- Blue before the clamp (R175). -/
def blue (y u : Byte) : Int := (y.toNat : Int) + tBU u - 227

/-- The saturator (R177). -/
def satU8 (v : Int) : Byte :=
  if v < 0 then 0 else if v > 255 then 255 else BitVec.ofInt 8 v

/-- The packer (R179): `{a, b, g, r}`. -/
def pack (r g b a : Byte) : Word := a ++ b ++ g ++ r

/-- The per-pixel function (R180); alpha is 255 (R178). -/
def convertPixel (y u v : Byte) : Word :=
  pack (satU8 (red y v)) (satU8 (green y u v)) (satU8 (blue y u)) 255

/-- The four bytes of a pixel from the lowest address up, as a host stores DATA (20_memory.md R66): R, G, B, A. -/
def outputBytes (data : Word) : List Byte :=
  [data.extractLsb' 0 8, data.extractLsb' 8 8, data.extractLsb' 16 8, data.extractLsb' 24 8]

end Sys2Proof.Machine
end

