-- ==== Sys2Proof/Machine/Convert.lean ====
section
/-! DEFINITION. CONVERT, 41_convert.md: the checks, the subsampling address translator, the plane reads and the
command's meaning. The chroma resampler is the translator's halving of both coordinates (R145). -/

namespace Sys2Proof.Machine

/-- `WIDTH[15:0]` (R35, R141). -/
def RegFile.w (f : RegFile) : Nat := (f.width.extractLsb' 0 16).toNat

/-- `HEIGHT[15:0]` (R36, R141). -/
def RegFile.h (f : RegFile) : Nat := (f.height.extractLsb' 0 16).toNat

/-- `y * Y_ROW_STRIDE + x`, exact (R143). -/
def lumaIndex (f : RegFile) (x y : Coord) : Nat := y.toNat * f.yRowStride.toNat + x.toNat

/-- `UV_PIXEL_STRIDE * (x / 2) + UV_ROW_STRIDE * (y / 2)`, exact (R144); the four pixels of a 2x2 block share it
(R145). -/
def chromaIndex (f : RegFile) (x y : Coord) : Nat :=
  f.uvPixelStride.toNat * (x.toNat / 2) + f.uvRowStride.toNat * (y.toNat / 2)

/-- `idx < size and base + idx < 2^32` (R146). -/
def inBounds (base size : Word) (idx : Nat) : Bool :=
  decide (idx < size.toNat) && decide (base.toNat + idx < 2 ^ 32)

/-- The configuration check of R142: what makes every CONVERT fail with `ERR_CONFIG`. -/
def badConfig (f : RegFile) : Bool :=
  decide (f.w = 0) || decide (f.h = 0) || decide (f.yRowStride.toNat < f.w)

/-- The coordinate check of R141: `x >= W or y >= H`. -/
def badCoord (f : RegFile) (x y : Coord) : Bool := decide (f.w ≤ x.toNat) || decide (f.h ≤ y.toNat)

/-- The bounds check of R146 on the three planes. -/
def planesInBounds (f : RegFile) (x y : Coord) : Bool :=
  inBounds f.yBase f.ySize (lumaIndex f x y) &&
  inBounds f.uBase f.uSize (chromaIndex f x y) &&
  inBounds f.vBase f.vSize (chromaIndex f x y)

/-- The addresses of the three reads of one CONVERT (R147). -/
structure PlaneAddrs where
  y : Nat
  u : Nat
  v : Nat
  deriving DecidableEq, Repr

/-- `Y_BASE + yIdx`, `U_BASE + uvIdx`, `V_BASE + uvIdx` (R146). -/
def planeAddrs (f : RegFile) (x y : Coord) : PlaneAddrs where
  y := f.yBase.toNat + lumaIndex f x y
  u := f.uBase.toNat + chromaIndex f x y
  v := f.vBase.toNat + chromaIndex f x y

/-- The checks a CONVERT makes before any read, in the order of R141 and R204: the error of the first that fails, or
the addresses it goes on to read. -/
def translate (f : RegFile) (x y : Coord) : Except Err PlaneAddrs :=
  if badConfig f then .error .config
  else if badCoord f x y then .error .coord
  else if !planesInBounds f x y then .error .bounds
  else .ok (planeAddrs f x y)

/-- What the three plane reads of a CONVERT come to, taken together (R147). -/
inductive PlaneData where
  /-- Some read is never answered: the command waits for it forever (R147, R238). -/
  | never
  /-- All are answered, at least one with `BusError`. -/
  | busError
  /-- All three answered with a byte. -/
  | samples (y u v : Byte)
  deriving DecidableEq, Repr

/-- The three replies taken together: the response waits for all three, and a `BusError` discards the bytes of the
others (R147). Their order cannot be seen (R68; notes/assumptions/11.md). -/
def PlaneData.ofReplies : MemReply → MemReply → MemReply → PlaneData
  | .never, _, _ => .never
  | _, .never, _ => .never
  | _, _, .never => .never
  | .busError, _, _ => .busError
  | _, .busError, _ => .busError
  | _, _, .busError => .busError
  | .byte y, .byte u, .byte v => .samples y u v

/-- The three reads of R147. -/
def readPlanes (m : SourceMemory) (a : PlaneAddrs) : PlaneData :=
  PlaneData.ofReplies (m.memRead a.y) (m.memRead a.u) (m.memRead a.v)

/-- `CONVERT x, y` (R141). -/
def execConvert (x y : Coord) (s : State) : Host.Outcome State Fault Refusal :=
  match translate s.cfg x y with
  | .error e => .next (raise e s)
  | .ok a =>
    match readPlanes s.toSourceMemory a with
    | .never => .fault .readNeverAnswered
    | .busError => .next (raise .bus s)
    | .samples sy su sv => .next (respond .ok (convertPixel sy su sv) s)

end Sys2Proof.Machine
end

