-- ==== Sys2Proof/Machine/Dispatch.lean ====
section
/-! DEFINITION. One arm per command, each one call of its meaning. -/

namespace Sys2Proof.Machine

def exec (i : Instr) (s : State) : Host.Outcome State Fault Refusal :=
  match i with
  | .convert x y => Sys2Proof.Machine.execConvert x y s
  | .cfgw reg data => Sys2Proof.Machine.execCfgw reg data s
  | .cfgr reg => Sys2Proof.Machine.execCfgr reg s

end Sys2Proof.Machine
end

