-- ==== Sys2Proof/Machine/Step.lean ====
section
/-! DEFINITION. One step of the converter: the oldest accepted command executed whole (60_exceptions.md R213,
70_reset_and_hazards.md R240). -/

namespace Sys2Proof.Machine

/-- Take the next command and execute it; an illegal word takes `ERR_OPCODE` (30_encoding.md R100). With no command to
take, the block idle or stalled, the state stays as it is (R217, R237; notes/assumptions/7.md). -/
def step (s : State) : Host.Outcome State Fault Refusal :=
  match nextCommand s with
  | none => .next s
  | some (w, s') =>
    match decode w with
    | .ok i => exec i s'
    | .error _ => .next (raiseIllegal s')

/-- `s` with the table's word `w` as the command `step` executes next. A command is one 64-bit word, so the bits above
`nbits` are those of `w`, which are 0. -/
def State.withFetchWord (s : State) (_nbits w : Nat) : State := placeCommand (BitVec.ofNat 64 w) s

end Sys2Proof.Machine
end

