-- ==== Sys2Proof/Machine/Assembler.lean ====
section
/-! DEFINITION. The assembler syntax of 30_encoding.md R103: one command per line, mnemonic case-insensitive, `;`
starting a comment, and the word of each line. There are no pseudo-instructions (R104). A line is a list of
characters. What R103 leaves open (spaces, letter case of names and digits) is in notes/assumptions/13.md. -/

namespace Sys2Proof.Machine

/-- Why the assembler refuses a line: no word is produced (R103). -/
inductive AsmError where
  /-- The first word of the line is none of `CONVERT`, `CFGW`, `CFGR`, `.dword`. -/
  | mnemonic
  /-- The operands are too few, too many, no number, or no register name. -/
  | operand
  /-- An imm32, imm64, x or y is outside its range. -/
  | range
  deriving DecidableEq, Repr

/-- A space or a tab. -/
def isSpace (c : Char) : Bool := c == ' ' || c == '\t'

/-- A line without its comment (R103). -/
def stripComment (l : List Char) : List Char := l.takeWhile (· != ';')

/-- A text without the spaces around it. -/
def trim (l : List Char) : List Char := ((l.dropWhile isSpace).reverse.dropWhile isSpace).reverse

/-- The texts between commas. -/
def splitCommas : List Char → List (List Char)
  | [] => [[]]
  | ',' :: rest => [] :: splitCommas rest
  | c :: rest =>
    match splitCommas rest with
    | [] => [[c]]
    | t :: ts => (c :: t) :: ts

/-- A letter in lower case, any other character as it is. -/
def lowerCase (c : Char) : Char :=
  if 'A'.toNat ≤ c.toNat ∧ c.toNat ≤ 'Z'.toNat then Char.ofNat (c.toNat + 32) else c

/-- The value of a digit below `base`. -/
def digitValue (base : Nat) (c : Char) : Option Nat :=
  let n := (lowerCase c).toNat
  let v := if n < '0'.toNat then base
    else if n ≤ '9'.toNat then n - '0'.toNat
    else if n < 'a'.toNat then base
    else n - 'a'.toNat + 10
  if v < base then some v else none

/-- Digits in front of which the value `acc` has been read. -/
def digits (base : Nat) (acc : Nat) : List Char → Option Nat
  | [] => some acc
  | c :: rest =>
    match digitValue base c with
    | none => none
    | some d => digits base (acc * base + d) rest

/-- A number, decimal or `0x` hexadecimal (R103). -/
def number : List Char → Option Nat
  | [] => none
  | '0' :: 'x' :: [] => none
  | '0' :: 'x' :: ds => digits 16 0 ds
  | ds => digits 10 0 ds

/-- The register names of R103 in the order of their indices (R34). -/
def registerNames : List (List Char) :=
  [ "WIDTH".toList, "HEIGHT".toList, "Y_BASE".toList, "Y_ROW_STRIDE".toList, "U_BASE".toList, "V_BASE".toList,
    "UV_PIXEL_STRIDE".toList, "UV_ROW_STRIDE".toList, "Y_SIZE".toList, "U_SIZE".toList, "V_SIZE".toList,
    "FAULT_STATUS".toList ]

/-- The names `r0` to `r15` in the order of their indices (R103). -/
def numberedNames : List (List Char) :=
  [ "r0".toList, "r1".toList, "r2".toList, "r3".toList, "r4".toList, "r5".toList, "r6".toList, "r7".toList,
    "r8".toList, "r9".toList, "r10".toList, "r11".toList, "r12".toList, "r13".toList, "r14".toList, "r15".toList ]

/-- The index a register operand names (R103). -/
def registerOperand (t : List Char) : Option Nat :=
  match registerNames.idxOf? t with
  | some i => some i
  | none => numberedNames.idxOf? t

/-- The line of a mnemonic and its operands. -/
def lineOf (mnemonic : List Char) (operands : List (List Char)) : Except AsmError AsmLine :=
  let m := mnemonic.map lowerCase
  if m = "convert".toList then
    match operands.map number with
    | [some x, some y] => .ok (.convert x y)
    | _ => .error .operand
  else if m = "cfgw".toList then
    match operands with
    | [r, v] =>
      match registerOperand r, number v with
      | some i, some n => .ok (.cfgw i n)
      | _, _ => .error .operand
    | _ => .error .operand
  else if m = "cfgr".toList then
    match operands.map registerOperand with
    | [some i] => .ok (.cfgr i)
    | _ => .error .operand
  else if m = ".dword".toList then
    match operands.map number with
    | [some v] => .ok (.dword v)
    | _ => .error .operand
  else .error .mnemonic

/-- A line read (R103); `none` where it holds no command. -/
def parseLine (l : List Char) : Except AsmError (Option AsmLine) :=
  match trim (stripComment l) with
  | [] => .ok none
  | t =>
    let operands := (splitCommas (trim (t.dropWhile (!isSpace ·)))).map trim
    (lineOf (t.takeWhile (!isSpace ·)) operands).map some

/-- The word of a line whose operands are in range, else an assembly error (R103). -/
def assemble (l : AsmLine) : Except AsmError CmdWord :=
  if l.wf then
    .ok (match l with
      | .convert x y => encode (.convert (BitVec.ofNat 16 x) (BitVec.ofNat 16 y))
      | .cfgw reg imm => encode (.cfgw (BitVec.ofNat 4 reg) (BitVec.ofNat 32 imm))
      | .cfgr reg => encode (.cfgr (BitVec.ofNat 4 reg))
      | .dword imm => BitVec.ofNat 64 imm)
  else .error .range

/-- The word of a line of text, `none` where it holds no command. -/
def assembleLine (l : List Char) : Except AsmError (Option CmdWord) :=
  match parseLine l with
  | .error e => .error e
  | .ok none => .ok none
  | .ok (some line) => (assemble line).map some

end Sys2Proof.Machine
end

