-- ==== Sys2Proof/Machine/System.lean ====
section
/-! DEFINITION. The block with its environment: the moves of the host and of the platform beside the converter's own
step (00_scope.md R15, 70_reset_and_hazards.md R241), the one-command view of R15 and the run of a list of command
words (R242). -/

namespace Sys2Proof.Machine

/-- The request channel transfers `w`, which joins the end of `cmdQueue` (30_encoding.md R91); `none` while `cmdQueue`
is full: the channel accepts no command (R237). -/
def accept (w : CmdWord) (s : State) : Option State :=
  if cmdFull s then none else some { s with cmdQueue := s.cmdQueue ++ [w] }

/-- The response channel transfers the oldest response (R97, R237); `none` while there is none. -/
def take (s : State) : Option (RspWord × State) :=
  match s.rspQueue with
  | [] => none
  | r :: rest => some (r, { s with rspQueue := rest })

/-- Reset (R230): every piece of the block's state at its reset value; queued commands and untaken responses are
discarded (R231). The source memory is not the block's and stays (10_state.md R30). -/
def applyReset (s : State) : State := { s with toBlock := Block.reset }

/-- The addresses a CONVERT reads under a configuration: three where it passes its checks, else none (R69, R147). -/
def convertReads (f : RegFile) (x y : Coord) : List Nat :=
  match translate f x y with
  | .ok a => [a.y, a.u, a.v]
  | .error _ => []

/-- The addresses the commands of a queue read, each CONVERT under the configuration the CFGWs before it leave (R122). -/
def queuedReads : RegFile → List CmdWord → List Nat
  | _, [] => []
  | f, w :: ws =>
    match decode w with
    | .ok (.convert x y) => convertReads f x y ++ queuedReads f ws
    | .ok (.cfgw reg data) => queuedReads ((f.write reg data).getD f) ws
    | .ok (.cfgr _) => queuedReads f ws
    | .error _ => queuedReads f ws

/-- The host writes the source memory, or the platform changes how an address answers (R53). Every later CONVERT reads
what it now answers (R72 items 3 and 5). A write of an address that a CONVERT accepted and not yet executed reads is one
the host must not make (R235), which a model refuses (D16; notes/assumptions/9.md). -/
def hostMemory (a : Word) (r : MemReply) (s : State) : Host.Outcome State Fault Refusal :=
  if a.toNat ∈ queuedReads s.cfg s.cmdQueue then .refused .planeWriteDuringConvert else .next (setReply a r s)

/-- The moves of the whole system (R15, R53, R241). -/
inductive Event where
  /-- The host offers a command word. -/
  | offer (w : CmdWord)
  /-- The converter executes its next command. -/
  | execute
  /-- The host takes a response. -/
  | take
  /-- Reset is applied. -/
  | reset
  /-- The host writes plane memory, or the platform changes how an address answers. -/
  | memory (a : Word) (r : MemReply)
  deriving DecidableEq, Repr

/-- One move. An offer the channel does not accept and a take with no response transfer nothing (R237, R239). -/
def Event.apply (e : Event) (s : State) : Host.Outcome State Fault Refusal :=
  match e with
  | .offer w => .next ((accept w s).getD s)
  | .execute => step s
  | .take => .next (((Machine.take s).map Prod.snd).getD s)
  | .reset => .next (applyReset s)
  | .memory a r => hostMemory a r s

/-- The response a move hands to the host: the oldest one, where it takes one (R97). -/
def Event.taken (e : Event) (s : State) : List RspWord :=
  match e with
  | .take => s.rspQueue.take 1
  | .offer _ => []
  | .execute => []
  | .reset => []
  | .memory _ _ => []

/-- A sequence of moves: the responses the host took, in order, and the last state. -/
def runEvents : List Event → State → Host.Outcome (List RspWord × State) Fault Refusal
  | [], s => .next ([], s)
  | e :: es, s =>
    match e.apply s with
    | .fault r => .fault r
    | .refused r => .refused r
    | .next s' =>
      match runEvents es s' with
      | .fault r => .fault r
      | .refused r => .refused r
      | .next (rs, t) => .next (e.taken s ++ rs, t)

/-- The addresses that the CONVERTs accepted in a sequence of moves, or before it, read. -/
def runReads : List Event → State → List Nat
  | [], s => queuedReads s.cfg s.cmdQueue
  | e :: es, s =>
    queuedReads s.cfg s.cmdQueue ++
      match e.apply s with
      | .next s' => runReads es s'
      | .fault _ => []
      | .refused _ => []

/-- The launch premise `planesImmutable` of R235 for the moves of one pass, from its first CONVERT offered to the
response of its last: no address that a CONVERT of the pass reads is written (R72 item 4). -/
def planesImmutable (es : List Event) (s : State) : Prop :=
  ∀ (a : Word) (r : MemReply), Event.memory a r ∈ es → a.toNat ∉ runReads es s

/-- The block's own function (R15, R30): a step of the block alone, with the source memory as a parameter. -/
def Block.step (m : SourceMemory) (b : Block) : Host.Outcome Block Fault Refusal :=
  match Machine.step { toBlock := b, toSourceMemory := m } with
  | .next t => .next t.toBlock
  | .fault r => .fault r
  | .refused r => .refused r

/-- Both queues empty: what a run starts from and ends in (R242). -/
abbrev State.idle (s : State) : Prop := s.cmdQueue = [] ∧ s.rspQueue = []

/-- `step(state, cmd) -> (state', rsp)` of R15: a command accepted, executed and its response taken. -/
def serve (w : CmdWord) (s : State) : Host.Outcome (RspWord × State) Fault Refusal :=
  match accept w s with
  | none => .refused .blockNotIdle
  | some s₁ =>
    match step s₁ with
    | .fault r => .fault r
    | .refused r => .refused r
    | .next s₂ =>
      match take s₂ with
      | none => .refused .blockNotIdle
      | some (r, s₃) => .next (r, s₃)

/-- The run of a list of command words from an idle block, and its observation: the responses in order and the final
state (R242). -/
def runProgram : List CmdWord → State → Host.Outcome (List RspWord × State) Fault Refusal
  | [], s => .next ([], s)
  | w :: ws, s =>
    match serve w s with
    | .fault r => .fault r
    | .refused r => .refused r
    | .next (r, s') =>
      match runProgram ws s' with
      | .fault r => .fault r
      | .refused r => .refused r
      | .next (rs, t) => .next (r :: rs, t)

end Sys2Proof.Machine
end

