-- ==== Sys2Proof/Safety.lean ====
section
/-! DEFINITION. What counts as a safe run, in the terms claims use: the source's preconditions on a CONVERT, the
configuration of a frame, the form of a response, and the invariant of the system. The predicates here are written
from the rules, not from the meanings. -/

namespace Sys2Proof.Machine

/-- The source's invariants on the configuration: `width`, `height` > 0 and `yRowStride >= width` (R142). -/
def RegFile.configOk (f : RegFile) : Prop :=
  0 < (f.width.extractLsb' 0 16).toNat ∧ 0 < (f.height.extractLsb' 0 16).toNat ∧
  (f.width.extractLsb' 0 16).toNat ≤ f.yRowStride.toNat

/-- `0 <= x < width`, `0 <= y < height` (R93). -/
def RegFile.inDomain (f : RegFile) (x y : Coord) : Prop :=
  x.toNat < (f.width.extractLsb' 0 16).toNat ∧ y.toNat < (f.height.extractLsb' 0 16).toNat

/-- The three indices inside their size registers and the three addresses below 2^32 (R146). -/
def RegFile.inBuffers (f : RegFile) (x y : Coord) : Prop :=
  (lumaIndex f x y < f.ySize.toNat ∧ f.yBase.toNat + lumaIndex f x y < 2 ^ 32) ∧
  (chromaIndex f x y < f.uSize.toNat ∧ f.uBase.toNat + chromaIndex f x y < 2 ^ 32) ∧
  (chromaIndex f x y < f.vSize.toNat ∧ f.vBase.toNat + chromaIndex f x y < 2 ^ 32)

/-- A CONVERT passes every check it makes before its reads (R141). -/
def RegFile.readsPlanes (f : RegFile) (x y : Coord) : Prop :=
  f.configOk ∧ f.inDomain x y ∧ f.inBuffers x y

/-- The extent a whole frame needs, read off its last pixel (R149). -/
def RegFile.frameFits (f : RegFile) : Prop :=
  let w := (f.width.extractLsb' 0 16).toNat
  let h := (f.height.extractLsb' 0 16).toNat
  let s := f.yRowStride.toNat
  let c := f.uvPixelStride.toNat * ((w - 1) / 2) + f.uvRowStride.toNat * ((h - 1) / 2)
  (f.yBase.toNat + (h - 1) * s + w - 1 < 2 ^ 32 ∧ (h - 1) * s + w ≤ f.ySize.toNat) ∧
  (c < f.uSize.toNat ∧ f.uBase.toNat + c < 2 ^ 32) ∧ (c < f.vSize.toNat ∧ f.vBase.toNat + c < 2 ^ 32)

/-- The form every response has: bits [59:32] zero, a status code R98 gives, DATA 0 unless the status is `OK` (R97). -/
def legalResponse (r : RspWord) : Prop :=
  rspZero r = 0 ∧ (rspStatus r).toNat ≤ 6 ∧ (rspStatus r ≠ 0 → rspData r = 0)

/-- No error has been recorded since reset: the run is free of the faults of R210. -/
abbrev State.faultFree (s : State) : Prop := s.cfg.faultStatus = 0

/-- The invariant of the system: reserved register bits read 0 (R35, R36, R46), every untaken response has the form of
R97 and its error, if it is one, is recorded (R46), the source memory is in canonical form, and neither queue is over
its depth (R50). -/
structure State.Inv (s : State) : Prop where
  widthReserved : s.cfg.width.extractLsb' 16 16 = 0
  heightReserved : s.cfg.height.extractLsb' 16 16 = 0
  faultReserved : s.cfg.faultStatus &&& 0xFFFFFF81 = 0
  responsesLegal : ∀ r ∈ s.rspQueue, legalResponse r
  errorsRecorded : ∀ r ∈ s.rspQueue, ∀ e : Err, rspStatus r = e.code → s.cfg.sticky e = true
  memoryWf : Memory.wf s.mem s.unanswered
  commandsFit : s.cmdQueue.length ≤ Config.reqDepth
  responsesFit : s.rspQueue.length ≤ Config.rspDepth

end Sys2Proof.Machine
end

