-- ==== Sys2Proof/Certificates/Slice0/Obligations.lean ====
section
/-! DEFINITION. The statements for the provers. Response words and sticky masks are written out from 30_encoding.md R97
and R98 and 10_state.md R46, not with the model's own `responseWord` and `raise`. -/

open Sys2Proof Sys2Proof.Machine

/-! ### Encoding -/

/-- The example words of R103 and words of the decoder's boundaries decode as the spec says. -/
def Obligations.SpecWordsDecode : Prop :=
  decode 0x1000000000020003 = .ok (.convert 3 2) ∧
  decode 0x1000000080008000 = .ok (.convert 0x8000 0x8000) ∧
  decode 0x2000000000000004 = .ok (.cfgw 0x0 4) ∧
  decode 0x2000000500001001 = .ok (.cfgw 0x5 0x1001) ∧
  decode 0x2000000FFFFFFFFF = .ok (.cfgw 0xF 0xFFFFFFFF) ∧
  decode 0x3000000B00000000 = .ok (.cfgr 0xB) ∧
  decode 0x1000000100000000 = .error .convertZeroField ∧
  decode 0x2000001B00000000 = .error .cfgwZeroField ∧
  decode 0x3000000B00000001 = .error .cfgrZeroField ∧
  decode 0x0000000000000000 = .error .opcode

/-- Decoding an encoded command gives it back, every operand at every value. -/
def Obligations.DecodeOfEncode : Prop := ∀ i : Instr, decode (encode i) = .ok i

/-- A word that decodes is the encoding of what it decodes to: one word for each command. -/
def Obligations.EncodeOfDecode : Prop := ∀ (c : CmdWord) (i : Instr), decode c = .ok i → encode i = c

/-- R99: `c & mask = match` decides the command, and its free fields are the operands; a word that matches no row is
no command. -/
def Obligations.OpcodeMapDecides : Prop :=
  ∀ c : CmdWord,
    (c &&& 0xFFFFFFFF00000000 = 0x1000000000000000 →
      decode c = .ok (.convert (c.extractLsb' 0 16) (c.extractLsb' 16 16))) ∧
    (c &&& 0xFFFFFFF000000000 = 0x2000000000000000 →
      decode c = .ok (.cfgw (c.extractLsb' 32 4) (c.extractLsb' 0 32))) ∧
    (c &&& 0xFFFFFFF0FFFFFFFF = 0x3000000000000000 → decode c = .ok (.cfgr (c.extractLsb' 32 4))) ∧
    (c &&& 0xFFFFFFFF00000000 ≠ 0x1000000000000000 ∧ c &&& 0xFFFFFFF000000000 ≠ 0x2000000000000000 ∧
      c &&& 0xFFFFFFF0FFFFFFFF ≠ 0x3000000000000000 → ∃ e, decode c = .error e)

/-- R100: a word is illegal exactly when it is one of the kinds listed there, and then it is executed as `ERR_OPCODE`
with DATA 0 and bit 1 of FAULT_STATUS, and has no other effect. -/
def Obligations.IllegalWordTakesErrOpcode : Prop :=
  ∀ c : CmdWord,
    let illegal : Prop :=
      (c.extractLsb' 60 4 = 0x0#4 ∨ 4 ≤ (c.extractLsb' 60 4).toNat) ∨
      (c.extractLsb' 60 4 = 0x1#4 ∧ c.extractLsb' 32 28 ≠ 0#28) ∨
      (c.extractLsb' 60 4 = 0x2#4 ∧ c.extractLsb' 36 24 ≠ 0#24) ∨
      (c.extractLsb' 60 4 = 0x3#4 ∧ (c.extractLsb' 36 24 ≠ 0#24 ∨ c.extractLsb' 0 32 ≠ 0#32))
    (illegal ↔ ∀ i : Instr, decode c ≠ .ok i) ∧
    (illegal → ∀ (s : State) (rest : List CmdWord),
      s.cmdQueue = c :: rest → s.rspQueue.length < Config.rspDepth →
      step s = .next { s with
        cmdQueue := rest
        rspQueue := s.rspQueue ++ [0x1000000000000000]
        cfg := { s.cfg with faultStatus := s.cfg.faultStatus ||| 0x2 } })

/-- R103: a command's line assembles to its word, and a line with an operand out of range produces no word. -/
def Obligations.AssemblerFollowsEncoding : Prop :=
  (∀ i : Instr, assemble i.toLine = .ok (encode i)) ∧
  ∀ l : AsmLine, l.wf = false → assemble l = .error .range

/-! ### Registers -/

/-- The register map of R34: index by index, the register it names; 0xC to 0xF name none (R47). -/
def Obligations.RegisterMap : Prop :=
  ∀ f : RegFile,
    f.read 0x0 = some f.width ∧ f.read 0x1 = some f.height ∧ f.read 0x2 = some f.yBase ∧
    f.read 0x3 = some f.yRowStride ∧ f.read 0x4 = some f.uBase ∧ f.read 0x5 = some f.vBase ∧
    f.read 0x6 = some f.uvPixelStride ∧ f.read 0x7 = some f.uvRowStride ∧ f.read 0x8 = some f.ySize ∧
    f.read 0x9 = some f.uSize ∧ f.read 0xA = some f.vSize ∧ f.read 0xB = some f.faultStatus ∧
    ∀ i : RegIndex, f.read i = none ↔ 0xC ≤ i.toNat

/-- R121, CFGW. Index 0xB or above: `ERR_REG`, bit 2 of FAULT_STATUS, nothing else. Below: `OK` with DATA 0, WIDTH and
HEIGHT take `zext_32(data[15:0])`, the others `data`; every other register, the command queue and the memory stay. -/
def Obligations.CfgwWritesItsRegister : Prop :=
  ∀ (s : State) (reg : RegIndex) (data : Word),
    (0xB ≤ reg.toNat →
      exec (.cfgw reg data) s = .next { s with
        rspQueue := s.rspQueue ++ [0x2000000000000000]
        cfg := { s.cfg with faultStatus := s.cfg.faultStatus ||| 0x4 } }) ∧
    (reg.toNat < 0xB →
      ∃ f : RegFile,
        exec (.cfgw reg data) s = .next { s with
          cfg := f, rspQueue := s.rspQueue ++ [0x0000000000000000] } ∧
        f.read reg = some (if reg.toNat ≤ 1 then (data.extractLsb' 0 16).setWidth 32 else data) ∧
        ∀ q : RegIndex, q ≠ reg → f.read q = s.cfg.read q)

/-- R124, CFGR. A reserved index: `ERR_REG`. A defined index: `OK` with the register's value in DATA and nothing else
changed; WIDTH and HEIGHT read with [31:16] = 0; after reset every defined register reads 0. -/
def Obligations.CfgrAnswersItsRegister : Prop :=
  (∀ (s : State) (reg : RegIndex),
    (0xC ≤ reg.toNat →
      exec (.cfgr reg) s = .next { s with
        rspQueue := s.rspQueue ++ [0x2000000000000000]
        cfg := { s.cfg with faultStatus := s.cfg.faultStatus ||| 0x4 } }) ∧
    (reg.toNat < 0xC →
      ∃ v : Word, s.cfg.read reg = some v ∧
        exec (.cfgr reg) s = .next { s with rspQueue := s.rspQueue ++ [v.setWidth 64] } ∧
        (s.Inv → reg.toNat ≤ 1 → v.extractLsb' 16 16 = 0))) ∧
  ∀ reg : RegIndex, reg.toNat < 0xC → State.reset.cfg.read reg = some 0

/-- A CFGR right after a CFGW of the same writable index answers what was written (R122, R236). -/
def Obligations.CfgwIsSeenByNextCfgr : Prop :=
  ∀ (s : State) (reg : RegIndex) (data : Word), reg.toNat < 0xB →
    ∃ t : State, exec (.cfgw reg data) s = .next t ∧
      exec (.cfgr reg) t = .next { t with
        rspQueue := t.rspQueue ++
          [if reg.toNat ≤ 1 then (data.extractLsb' 0 16).setWidth 64 else data.setWidth 64] }

/-- R35, R36: WIDTH and HEIGHT hold data[15:0] of whatever is written and read back with [31:16] = 0; any 16-bit value
may be written, and the value 0 makes every CONVERT fail with `ERR_CONFIG`; after reset both read 0. -/
def Obligations.WidthAndHeightHoldSixteenBits : Prop :=
  (∀ (s : State) (reg : RegIndex) (data : Word), reg = 0x0 ∨ reg = 0x1 →
    ∃ t : State, exec (.cfgw reg data) s = .next t ∧ t.rspQueue = s.rspQueue ++ [0x0000000000000000] ∧
      t.cfg.read reg = some ((data.extractLsb' 0 16).setWidth 32) ∧
      exec (.cfgr reg) t = .next { t with rspQueue := t.rspQueue ++ [(data.extractLsb' 0 16).setWidth 64] } ∧
      (data.extractLsb' 0 16 = 0 → ∀ x y : Coord, exec (.convert x y) t = .next { t with
        rspQueue := t.rspQueue ++ [0x3000000000000000]
        cfg := { t.cfg with faultStatus := t.cfg.faultStatus ||| 0x8 } })) ∧
  State.reset.cfg.read 0x0 = some 0 ∧ State.reset.cfg.read 0x1 = some 0

/-- R47: at the indices 0xC to 0xF no register exists, and CFGR and CFGW of one are refused with `ERR_REG` and nothing
else. -/
def Obligations.ReservedIndicesAreRefused : Prop :=
  ∀ (s : State) (reg : RegIndex), 0xC ≤ reg.toNat →
    let refused : State := { s with
      rspQueue := s.rspQueue ++ [0x2000000000000000]
      cfg := { s.cfg with faultStatus := s.cfg.faultStatus ||| 0x4 } }
    s.cfg.read reg = none ∧ exec (.cfgr reg) s = .next refused ∧
    ∀ data : Word, exec (.cfgw reg data) s = .next refused

/-- R125: a CFGR of a reserved index sets bit 2, which the CFGR of FAULT_STATUS after it answers; that CFGR itself
changes no register. -/
def Obligations.FaultStatusReadSeesErrors : Prop :=
  ∀ (s : State) (reg : RegIndex), 0xC ≤ reg.toNat →
    ∃ t u : State, exec (.cfgr reg) s = .next t ∧ exec (.cfgr 0xB) t = .next u ∧
      u.rspQueue = s.rspQueue ++ [0x2000000000000000, (s.cfg.faultStatus ||| 0x4).setWidth 64] ∧
      u.cfg = { s.cfg with faultStatus := s.cfg.faultStatus ||| 0x4 }

/-- R120: neither CFGW nor CFGR reads the source memory: with another memory the same command does the same. Neither
writes it, and neither touches the queues but by being answered. -/
def Obligations.ConfigCommandsIgnoreMemory : Prop :=
  ∀ (s : State) (m : List Host.Cell) (a : List Nat) (i : Instr), (∀ x y, i ≠ .convert x y) →
    ∃ (t : State) (r : RspWord), exec i s = .next t ∧ t.mem = s.mem ∧ t.unanswered = s.unanswered ∧
      t.cmdQueue = s.cmdQueue ∧ t.rspQueue = s.rspQueue ++ [r] ∧
      exec i { s with mem := m, unanswered := a } = .next { t with mem := m, unanswered := a }

/-- R205: a word with the opcode of CFGW or CFGR reports `ERR_OPCODE` if it is malformed, else `ERR_REG` if its index is
refused, else `OK`. -/
def Obligations.ConfigCommandReportsFirstError : Prop :=
  ∀ (s t : State) (c : CmdWord) (rest : List CmdWord) (r : RspWord),
    s.cmdQueue = c :: rest → s.rspQueue.length < Config.rspDepth → step s = .next t →
    t.rspQueue = s.rspQueue ++ [r] →
    (c.extractLsb' 60 4 = 0x2#4 →
      rspStatus r = if c.extractLsb' 36 24 ≠ 0#24 then 0x1 else if 0xB ≤ (c.extractLsb' 32 4).toNat then 0x2 else 0x0) ∧
    (c.extractLsb' 60 4 = 0x3#4 →
      rspStatus r = if c.extractLsb' 36 24 ≠ 0#24 ∨ c.extractLsb' 0 32 ≠ 0#32 then 0x1
        else if 0xC ≤ (c.extractLsb' 32 4).toNat then 0x2 else 0x0)

/-! ### CONVERT -/

/-- R142: a configuration that breaks one of the three invariants makes every CONVERT, whatever its coordinates, answer
`ERR_CONFIG`, and no other configuration does, whatever its chroma strides; CFGW makes no such check. -/
def Obligations.ConvertRefusesBadConfig : Prop :=
  ∀ (s : State) (x y : Coord),
    let bad : Prop := (s.cfg.width.extractLsb' 0 16).toNat = 0 ∨ (s.cfg.height.extractLsb' 0 16).toNat = 0 ∨
      s.cfg.yRowStride.toNat < (s.cfg.width.extractLsb' 0 16).toNat
    (bad → exec (.convert x y) s = .next { s with
      rspQueue := s.rspQueue ++ [0x3000000000000000]
      cfg := { s.cfg with faultStatus := s.cfg.faultStatus ||| 0x8 } }) ∧
    (¬ bad → ∀ (t : State) (r : RspWord), exec (.convert x y) s = .next t → t.rspQueue = s.rspQueue ++ [r] →
      rspStatus r ≠ 0x3) ∧
    ∀ (reg : RegIndex) (data : Word), reg.toNat < 0xB →
      ∃ t : State, exec (.cfgw reg data) s = .next t ∧ t.rspQueue = s.rspQueue ++ [0x0000000000000000]

/-- A CONVERT outside the frame of a good configuration answers `ERR_COORD`, whatever the sizes (R141, R204). -/
def Obligations.ConvertRefusesBadCoordinates : Prop :=
  ∀ (s : State) (x y : Coord), s.cfg.configOk →
    ((s.cfg.width.extractLsb' 0 16).toNat ≤ x.toNat ∨ (s.cfg.height.extractLsb' 0 16).toNat ≤ y.toNat) →
    exec (.convert x y) s = .next { s with
      rspQueue := s.rspQueue ++ [0x4000000000000000]
      cfg := { s.cfg with faultStatus := s.cfg.faultStatus ||| 0x10 } }

/-- R146: an index at or beyond its size register, or an address at or above 2^32, answers `ERR_BOUNDS`, before any
read (so whatever the memory answers, R204); else the addresses read are the three sums, each below 2^32. -/
def Obligations.ConvertRefusesOutOfBounds : Prop :=
  ∀ (s : State) (x y : Coord), s.cfg.configOk → s.cfg.inDomain x y →
    let out : Prop :=
      (s.cfg.ySize.toNat ≤ lumaIndex s.cfg x y ∨ 2 ^ 32 ≤ s.cfg.yBase.toNat + lumaIndex s.cfg x y) ∨
      (s.cfg.uSize.toNat ≤ chromaIndex s.cfg x y ∨ 2 ^ 32 ≤ s.cfg.uBase.toNat + chromaIndex s.cfg x y) ∨
      (s.cfg.vSize.toNat ≤ chromaIndex s.cfg x y ∨ 2 ^ 32 ≤ s.cfg.vBase.toNat + chromaIndex s.cfg x y)
    (out → exec (.convert x y) s = .next { s with
      rspQueue := s.rspQueue ++ [0x5000000000000000]
      cfg := { s.cfg with faultStatus := s.cfg.faultStatus ||| 0x20 } }) ∧
    (¬ out → ∃ a : PlaneAddrs, translate s.cfg x y = .ok a ∧
      a.y = s.cfg.yBase.toNat + lumaIndex s.cfg x y ∧ a.u = s.cfg.uBase.toNat + chromaIndex s.cfg x y ∧
      a.v = s.cfg.vBase.toNat + chromaIndex s.cfg x y ∧ a.y < 2 ^ 32 ∧ a.u < 2 ^ 32 ∧ a.v < 2 ^ 32)

/-- A CONVERT whose three reads are all answered, one or more of them with `BusError`, answers `ERR_BUS` (R147). -/
def Obligations.ConvertReportsBusError : Prop :=
  ∀ (s : State) (x y : Coord), s.cfg.readsPlanes x y →
    s.memRead (s.cfg.yBase.toNat + lumaIndex s.cfg x y) ≠ .never →
    s.memRead (s.cfg.uBase.toNat + chromaIndex s.cfg x y) ≠ .never →
    s.memRead (s.cfg.vBase.toNat + chromaIndex s.cfg x y) ≠ .never →
    (s.memRead (s.cfg.yBase.toNat + lumaIndex s.cfg x y) = .busError ∨
      s.memRead (s.cfg.uBase.toNat + chromaIndex s.cfg x y) = .busError ∨
      s.memRead (s.cfg.vBase.toNat + chromaIndex s.cfg x y) = .busError) →
    exec (.convert x y) s = .next { s with
      rspQueue := s.rspQueue ++ [0x6000000000000000]
      cfg := { s.cfg with faultStatus := s.cfg.faultStatus ||| 0x40 } }

/-- A CONVERT one of whose reads is never answered never finishes (R238): the model's stuck state
(notes/assumptions/3.md). -/
def Obligations.ConvertHangsOnUnansweredRead : Prop :=
  ∀ (s : State) (x y : Coord), s.cfg.readsPlanes x y →
    (s.memRead (s.cfg.yBase.toNat + lumaIndex s.cfg x y) = .never ∨
      s.memRead (s.cfg.uBase.toNat + chromaIndex s.cfg x y) = .never ∨
      s.memRead (s.cfg.vBase.toNat + chromaIndex s.cfg x y) = .never) →
    exec (.convert x y) s = .fault .readNeverAnswered

/-- R141, the completion of CONVERT: every check passed and the three bytes read, the response is `OK` with the pixel
of R180 in DATA; no register, flag, queued command or byte of memory changes. -/
def Obligations.ConvertAnswersThePixel : Prop :=
  ∀ (s : State) (x y : Coord) (sy su sv : Byte), s.cfg.readsPlanes x y →
    s.memRead (s.cfg.yBase.toNat + (y.toNat * s.cfg.yRowStride.toNat + x.toNat)) = .byte sy →
    s.memRead (s.cfg.uBase.toNat +
      (s.cfg.uvPixelStride.toNat * (x.toNat / 2) + s.cfg.uvRowStride.toNat * (y.toNat / 2))) = .byte su →
    s.memRead (s.cfg.vBase.toNat +
      (s.cfg.uvPixelStride.toNat * (x.toNat / 2) + s.cfg.uvRowStride.toNat * (y.toNat / 2))) = .byte sv →
    exec (.convert x y) s = .next { s with
      rspQueue := s.rspQueue ++ [(convertPixel sy su sv).setWidth 64] }

/-- A CONVERT refused by `ERR_CONFIG`, `ERR_COORD` or `ERR_BOUNDS` reads no memory (R202): with any other memory it
does the same. -/
def Obligations.RefusedConvertReadsNothing : Prop :=
  ∀ (s : State) (x y : Coord) (m : List Host.Cell) (a : List Nat), ¬ s.cfg.readsPlanes x y →
    ∃ t : State, exec (.convert x y) s = .next t ∧
      exec (.convert x y) { s with mem := m, unanswered := a } = .next { t with mem := m, unanswered := a }

/-- R154, the frame of CONVERT: one response; no register but, on an error, its sticky bit of FAULT_STATUS; no byte of
memory; no queued command. -/
def Obligations.ConvertFrame : Prop :=
  ∀ (s t : State) (x y : Coord), exec (.convert x y) s = .next t →
    (∀ q : RegIndex, q ≠ 0xB → t.cfg.read q = s.cfg.read q) ∧
    (∀ a : Nat, t.memRead a = s.memRead a) ∧ t.mem = s.mem ∧ t.unanswered = s.unanswered ∧
    t.cmdQueue = s.cmdQueue ∧
    ∃ r : RspWord, t.rspQueue = s.rspQueue ++ [r] ∧
      (rspStatus r = 0 → t.cfg.faultStatus = s.cfg.faultStatus) ∧
      (rspStatus r ≠ 0 → t.cfg.faultStatus = s.cfg.faultStatus ||| (1#32 <<< (rspStatus r).toNat))

/-- R204: a CONVERT word reports the first status that applies: `ERR_OPCODE`, `ERR_CONFIG`, `ERR_COORD`, `ERR_BOUNDS`,
`ERR_BUS`, else `OK`. -/
def Obligations.ConvertReportsFirstError : Prop :=
  ∀ (s t : State) (c : CmdWord) (rest : List CmdWord) (r : RspWord),
    s.cmdQueue = c :: rest → s.rspQueue.length < Config.rspDepth → c.extractLsb' 60 4 = 0x1#4 →
    step s = .next t → t.rspQueue = s.rspQueue ++ [r] →
    let x : Coord := c.extractLsb' 0 16
    let y : Coord := c.extractLsb' 16 16
    let busError : Prop :=
      s.memRead (s.cfg.yBase.toNat + lumaIndex s.cfg x y) = .busError ∨
      s.memRead (s.cfg.uBase.toNat + chromaIndex s.cfg x y) = .busError ∨
      s.memRead (s.cfg.vBase.toNat + chromaIndex s.cfg x y) = .busError
    (c.extractLsb' 32 28 ≠ 0#28 → rspStatus r = 0x1) ∧
    (c.extractLsb' 32 28 = 0#28 →
      (¬ s.cfg.configOk → rspStatus r = 0x3) ∧
      (s.cfg.configOk → ¬ s.cfg.inDomain x y → rspStatus r = 0x4) ∧
      (s.cfg.configOk → s.cfg.inDomain x y → ¬ s.cfg.inBuffers x y → rspStatus r = 0x5) ∧
      (s.cfg.readsPlanes x y → busError → rspStatus r = 0x6) ∧
      (s.cfg.readsPlanes x y → ¬ busError → rspStatus r = 0x0))

/-- R51, R140, R153: the response of a CONVERT depends on its coordinates, the registers 0x0 to 0xA and what the three
addresses answer, and on nothing else of the state. -/
def Obligations.ConvertDependsOnThreeReads : Prop :=
  ∀ (s s' t : State) (x y : Coord),
    s'.cfg = { s.cfg with faultStatus := s'.cfg.faultStatus } →
    s'.memRead (s.cfg.yBase.toNat + lumaIndex s.cfg x y) = s.memRead (s.cfg.yBase.toNat + lumaIndex s.cfg x y) →
    s'.memRead (s.cfg.uBase.toNat + chromaIndex s.cfg x y) = s.memRead (s.cfg.uBase.toNat + chromaIndex s.cfg x y) →
    s'.memRead (s.cfg.vBase.toNat + chromaIndex s.cfg x y) = s.memRead (s.cfg.vBase.toNat + chromaIndex s.cfg x y) →
    exec (.convert x y) s = .next t →
    ∃ (t' : State) (r : RspWord), exec (.convert x y) s' = .next t' ∧
      t.rspQueue = s.rspQueue ++ [r] ∧ t'.rspQueue = s'.rspQueue ++ [r]

/-- R143: the luma index, and that no pixel of the domain takes it to 2^48 + 2^16. -/
def Obligations.LumaIndexRange : Prop :=
  ∀ (f : RegFile) (x y : Coord),
    lumaIndex f x y = y.toNat * f.yRowStride.toNat + x.toNat ∧
    (f.inDomain x y → lumaIndex f x y < 2 ^ 48 + 2 ^ 16)

/-- R144: the chroma index, below 2^48 on the domain, the same for both chroma planes. -/
def Obligations.ChromaIndexRange : Prop :=
  ∀ (f : RegFile) (x y : Coord),
    chromaIndex f x y = f.uvPixelStride.toNat * (x.toNat / 2) + f.uvRowStride.toNat * (y.toNat / 2) ∧
    chromaIndex f x y = f.uvPixelStride.toNat * (x.toNat >>> 1) + f.uvRowStride.toNat * (y.toNat >>> 1) ∧
    (f.inDomain x y → chromaIndex f x y < 2 ^ 48) ∧
    (planeAddrs f x y).u = f.uBase.toNat + chromaIndex f x y ∧
    (planeAddrs f x y).v = f.vBase.toNat + chromaIndex f x y

/-- R145: the four luma pixels of the block (i, j) read the U byte and the V byte of chroma coordinates (i, j). -/
def Obligations.BlockSharesChroma : Prop :=
  ∀ (f : RegFile) (i j : Nat) (x y : Coord), (x.toNat = 2 * i ∨ x.toNat = 2 * i + 1) →
    (y.toNat = 2 * j ∨ y.toNat = 2 * j + 1) →
    (planeAddrs f x y).u = f.uBase.toNat + (f.uvPixelStride.toNat * i + f.uvRowStride.toNat * j) ∧
    (planeAddrs f x y).v = f.vBase.toNat + (f.uvPixelStride.toNat * i + f.uvRowStride.toNat * j)

/-- R149: under a good configuration every pixel of the frame is in bounds exactly when the last one's extent fits. -/
def Obligations.FrameFitsIffEveryPixelInBounds : Prop :=
  ∀ f : RegFile, f.configOk → ((∀ x y : Coord, f.inDomain x y → f.inBuffers x y) ↔ f.frameFits)

/-- For every input that meets the source's preconditions the response is `OK` (60_exceptions.md, preamble): with a
good configuration, a frame that fits and a memory that answers every address inside the planes with a byte, every
CONVERT of the frame completes with `OK` and changes no register. -/
def Obligations.ReadyFrameConvertsEveryPixel : Prop :=
  ∀ s : State, s.cfg.configOk → s.cfg.frameFits →
    (∀ k, k < s.cfg.ySize.toNat → s.cfg.yBase.toNat + k < 2 ^ 32 → ∃ b, s.memRead (s.cfg.yBase.toNat + k) = .byte b) →
    (∀ k, k < s.cfg.uSize.toNat → s.cfg.uBase.toNat + k < 2 ^ 32 → ∃ b, s.memRead (s.cfg.uBase.toNat + k) = .byte b) →
    (∀ k, k < s.cfg.vSize.toNat → s.cfg.vBase.toNat + k < 2 ^ 32 → ∃ b, s.memRead (s.cfg.vBase.toNat + k) = .byte b) →
    ∀ x y : Coord, s.cfg.inDomain x y →
      ∃ d : Word, exec (.convert x y) s = .next { s with rspQueue := s.rspQueue ++ [d.setWidth 64] }

/-- R150: planar and interleaved layouts that hold the same samples give the same response to every CONVERT. -/
def Obligations.LayoutsWithSameSamplesAgree : Prop :=
  ∀ s s' : State,
    s.cfg.configOk → s'.cfg.configOk → s.cfg.frameFits → s'.cfg.frameFits →
    s'.cfg.width.extractLsb' 0 16 = s.cfg.width.extractLsb' 0 16 →
    s'.cfg.height.extractLsb' 0 16 = s.cfg.height.extractLsb' 0 16 →
    (∀ x y : Coord, s.cfg.inDomain x y →
      s'.memRead (s'.cfg.yBase.toNat + (y.toNat * s'.cfg.yRowStride.toNat + x.toNat)) =
        s.memRead (s.cfg.yBase.toNat + (y.toNat * s.cfg.yRowStride.toNat + x.toNat))) →
    (∀ i j : Nat, 2 * i < (s.cfg.width.extractLsb' 0 16).toNat → 2 * j < (s.cfg.height.extractLsb' 0 16).toNat →
      s'.memRead (s'.cfg.uBase.toNat + s'.cfg.uvPixelStride.toNat * i + s'.cfg.uvRowStride.toNat * j) =
        s.memRead (s.cfg.uBase.toNat + s.cfg.uvPixelStride.toNat * i + s.cfg.uvRowStride.toNat * j) ∧
      s'.memRead (s'.cfg.vBase.toNat + s'.cfg.uvPixelStride.toNat * i + s'.cfg.uvRowStride.toNat * j) =
        s.memRead (s.cfg.vBase.toNat + s.cfg.uvPixelStride.toNat * i + s.cfg.uvRowStride.toNat * j)) →
    ∀ (x y : Coord) (t : State), exec (.convert x y) s = .next t →
      ∃ (t' : State) (r : RspWord), exec (.convert x y) s' = .next t' ∧
        t.rspQueue = s.rspQueue ++ [r] ∧ t'.rspQueue = s'.rspQueue ++ [r]

/-- R152: a pixel of the frame never reads row padding, and no two pixels of the frame read the same luma byte. -/
def Obligations.LumaBytesAreDistinct : Prop :=
  ∀ (f : RegFile) (x y x' y' : Coord), f.configOk → f.inDomain x y → f.inDomain x' y' →
    lumaIndex f x y % f.yRowStride.toNat = x.toNat ∧
    (lumaIndex f x y = lumaIndex f x' y' → x = x' ∧ y = y')

/-- R151: the chroma index under zero strides; pixels (2, 0) and (0, 0) share one exactly when UV_PIXEL_STRIDE is 0;
`Y_ROW_STRIDE = 0` forces `ERR_CONFIG`. -/
def Obligations.ZeroStrides : Prop :=
  ∀ (s : State) (x y : Coord),
    (s.cfg.uvPixelStride = 0 → chromaIndex s.cfg x y = s.cfg.uvRowStride.toNat * (y.toNat / 2)) ∧
    (s.cfg.uvRowStride = 0 → chromaIndex s.cfg x y = s.cfg.uvPixelStride.toNat * (x.toNat / 2)) ∧
    (s.cfg.uvPixelStride = 0 → s.cfg.uvRowStride = 0 → chromaIndex s.cfg x y = 0) ∧
    (chromaIndex s.cfg 2 0 = chromaIndex s.cfg 0 0 ↔ s.cfg.uvPixelStride = 0) ∧
    (s.cfg.yRowStride = 0 → exec (.convert x y) s = .next { s with
      rspQueue := s.rspQueue ++ [0x3000000000000000]
      cfg := { s.cfg with faultStatus := s.cfg.faultStatus ||| 0x8 } })

/-! ### The CSC engine -/

/-- R172: the four truncated terms, each of its own product, as a shift and as a division, with the ranges of products
and terms. -/
def Obligations.ChromaTerms : Prop :=
  ∀ u v : Byte,
    (tRV v = (v.toNat * 1436) >>> 10 ∧ tRV v = v.toNat * 1436 / 1024 ∧ v.toNat * 1436 ≤ 366180 ∧ tRV v ≤ 357) ∧
    (tGU u = (u.toNat * 46549) >>> 17 ∧ tGU u = u.toNat * 46549 / 131072 ∧ u.toNat * 46549 ≤ 11869995 ∧
      tGU u ≤ 90) ∧
    (tGV v = (v.toNat * 93604) >>> 17 ∧ tGV v = v.toNat * 93604 / 131072 ∧ v.toNat * 93604 ≤ 23869020 ∧
      tGV v ≤ 182) ∧
    (tBU u = (u.toNat * 1814) >>> 10 ∧ tBU u = u.toNat * 1814 / 1024 ∧ u.toNat * 1814 ≤ 462570 ∧ tBU u ≤ 451)

/-- R173, R174, R175: the three channels before the clamp, their ranges and their examples. -/
def Obligations.ChannelSums : Prop :=
  (∀ y u v : Byte,
    (red y v = y.toNat + ((v.toNat * 1436) / 1024 : Nat) - 179 ∧ -179 ≤ red y v ∧ red y v ≤ 433) ∧
    (green y u v = y.toNat - ((u.toNat * 46549) / 131072 : Nat) + 44 - ((v.toNat * 93604) / 131072 : Nat) + 91 ∧
      -137 ≤ green y u v ∧ green y u v ≤ 390) ∧
    (blue y u = y.toNat + ((u.toNat * 1814) / 1024 : Nat) - 227 ∧ -227 ≤ blue y u ∧ blue y u ≤ 479)) ∧
  tRV 128 = 179 ∧ red 128 128 = 128 ∧ tGU 128 = 45 ∧ tGV 128 = 91 ∧ green 128 128 128 = 127 ∧
  tBU 128 = 226 ∧ blue 128 128 = 127

/-- R176 (c): whatever subset of a channel's summands is summed first, the partial sum lies in -272..706. -/
def Obligations.PartialSumsFit : Prop :=
  ∀ (y u v : Byte) (p q r m n : Bool),
    let part (b : Bool) (k : Int) : Int := if b then k else 0
    let sumR := part p y.toNat + part q (tRV v) - part r 179
    let sumG := part p y.toNat - part q (tGU u) + part r 44 - part m (tGV v) + part n 91
    let sumB := part p y.toNat + part q (tBU u) - part r 227
    (-272 ≤ sumR ∧ sumR ≤ 706) ∧ (-272 ≤ sumG ∧ sumG ≤ 706) ∧ (-272 ≤ sumB ∧ sumB ≤ 706)

/-- R177: the saturator clamps to 0..255 and never wraps. -/
def Obligations.SaturatorClamps : Prop :=
  ∀ v : Int, ((satU8 v).toNat : Int) = if v < 0 then 0 else if v > 255 then 255 else v

/-- R178, R179, R180: the packer puts R, G, B, A in the byte lanes from the lowest up, which is the order of the bytes a
host stores (R66); the pixel is the packed clamp of the three channels with alpha 255. -/
def Obligations.PixelByteLanes : Prop :=
  (∀ r g b a : Byte,
    (pack r g b a).extractLsb' 0 8 = r ∧ (pack r g b a).extractLsb' 8 8 = g ∧
    (pack r g b a).extractLsb' 16 8 = b ∧ (pack r g b a).extractLsb' 24 8 = a ∧
    outputBytes (pack r g b a) = [r, g, b, a]) ∧
  pack 128 127 127 255 = 0xFF7F7F80 ∧
  ∀ y u v : Byte,
    convertPixel y u v = pack
      (satU8 (y.toNat + ((v.toNat * 1436) >>> 10 : Nat) - 179))
      (satU8 (y.toNat - ((u.toNat * 46549) >>> 17 : Nat) + 44 - ((v.toNat * 93604) >>> 17 : Nat) + 91))
      (satU8 (y.toNat + ((u.toNat * 1814) >>> 10 : Nat) - 227)) 255 ∧
    (convertPixel y u v).extractLsb' 24 8 = 255

/-- R183: exactly when each channel is 0 and exactly when it is 255. -/
def Obligations.SaturationThresholds : Prop :=
  ∀ y u v : Byte,
    (satU8 (red y v) = 0 ↔ y.toNat + tRV v ≤ 179) ∧ (satU8 (red y v) = 255 ↔ 434 ≤ y.toNat + tRV v) ∧
    (satU8 (green y u v) = 0 ↔ y.toNat + 135 ≤ tGU u + tGV v) ∧
    (satU8 (green y u v) = 255 ↔ 255 + tGU u + tGV v ≤ y.toNat + 135) ∧
    (satU8 (blue y u) = 0 ↔ y.toNat + tBU u ≤ 227) ∧ (satU8 (blue y u) = 255 ↔ 482 ≤ y.toNat + tBU u)

/-- R182: alpha is 255 and each channel a byte; red ignores U, blue ignores V; each channel is monotone in each sample;
the mid-gray and white pixels. -/
def Obligations.PixelProperties : Prop :=
  (∀ y u v : Byte, (convertPixel y u v).extractLsb' 24 8 = 255) ∧
  (∀ y u u' v : Byte, (convertPixel y u v).extractLsb' 0 8 = (convertPixel y u' v).extractLsb' 0 8) ∧
  (∀ y u v v' : Byte, (convertPixel y u v).extractLsb' 16 8 = (convertPixel y u v').extractLsb' 16 8) ∧
  (∀ y y' u v : Byte, y ≤ y' →
    (convertPixel y u v).extractLsb' 0 8 ≤ (convertPixel y' u v).extractLsb' 0 8 ∧
    (convertPixel y u v).extractLsb' 8 8 ≤ (convertPixel y' u v).extractLsb' 8 8 ∧
    (convertPixel y u v).extractLsb' 16 8 ≤ (convertPixel y' u v).extractLsb' 16 8) ∧
  (∀ y u v v' : Byte, v ≤ v' →
    (convertPixel y u v).extractLsb' 0 8 ≤ (convertPixel y u v').extractLsb' 0 8 ∧
    (convertPixel y u v').extractLsb' 8 8 ≤ (convertPixel y u v).extractLsb' 8 8) ∧
  (∀ y u u' v : Byte, u ≤ u' →
    (convertPixel y u v).extractLsb' 16 8 ≤ (convertPixel y u' v).extractLsb' 16 8 ∧
    (convertPixel y u' v).extractLsb' 8 8 ≤ (convertPixel y u v).extractLsb' 8 8) ∧
  convertPixel 128 128 128 = 0xFF7F7F80 ∧ convertPixel 255 128 128 = 0xFFFEFEFF

/-! ### The machine -/

/-- A step with a command waiting and room for its response is `exec` of the command its word decodes to, on the state
with that word taken from the queue; a step with no command waiting, or no room, answers the same state (the model's form
of waiting, notes/assumptions/7.md). -/
def Obligations.StepRunsDecodedInstruction : Prop :=
  (∀ (s : State) (c : CmdWord) (rest : List CmdWord) (i : Instr),
    s.cmdQueue = c :: rest → s.rspQueue.length < Config.rspDepth → decode c = .ok i →
    step s = exec i { s with cmdQueue := rest }) ∧
  ∀ s : State, s.cmdQueue = [] ∨ Config.rspDepth ≤ s.rspQueue.length → step s = .next s

/-- R64: a step writes no memory: every address answers after it as before. R30: the source memory is a parameter of
the block, read only through `MemRead`: a step is the block's own step with the memory as an argument, and two memories
that answer every address alike give the same block. -/
def Obligations.StepWritesNoMemory : Prop :=
  (∀ s t : State, step s = .next t →
    t.mem = s.mem ∧ t.unanswered = s.unanswered ∧ (∀ a : Nat, t.memRead a = s.memRead a) ∧
    Block.step s.toSourceMemory s.toBlock = .next t.toBlock) ∧
  ∀ (m m' : SourceMemory) (b : Block), (∀ a : Nat, m'.memRead a = m.memRead a) → Block.step m' b = Block.step m b

/-- R237: with `RSP_DEPTH` responses untaken a step answers the same state, the model's form of executing nothing
(notes/assumptions/7.md); with `REQ_DEPTH` commands queued the channel accepts none, and the offer changes nothing, the
model's form of a transfer that is not made (notes/assumptions/15.md); and no move but reset drops a command or a
response: a command leaves its queue only by being executed and answered, a response only by being taken. -/
def Obligations.BackPressureDropsNothing : Prop :=
  (∀ s : State, Config.rspDepth ≤ s.rspQueue.length → step s = .next s) ∧
  (∀ (s : State) (w : CmdWord), Config.reqDepth ≤ s.cmdQueue.length →
    accept w s = none ∧ Event.apply (.offer w) s = .next s) ∧
  ∀ (e : Event) (s t : State), e ≠ .reset → e.apply s = .next t →
    (t.cmdQueue = s.cmdQueue ∧ t.rspQueue = s.rspQueue) ∨
    (∃ w, e = .offer w ∧ t.cmdQueue = s.cmdQueue ++ [w] ∧ t.rspQueue = s.rspQueue) ∨
    (e = .execute ∧ ∃ w r, s.cmdQueue = w :: t.cmdQueue ∧ t.rspQueue = s.rspQueue ++ [r]) ∨
    (e = .take ∧ t.cmdQueue = s.cmdQueue ∧ ∃ r, s.rspQueue = r :: t.rspQueue)

/-- Every command is answered, but a CONVERT one of whose three addresses the platform never answers, which ends in the
model's stuck state (notes/assumptions/3.md). -/
def Obligations.EveryCommandIsAnswered : Prop :=
  ∀ (i : Instr) (s : State),
    (∃ (t : State) (r : RspWord), exec i s = .next t ∧ t.rspQueue = s.rspQueue ++ [r] ∧ legalResponse r) ∨
    (exec i s = .fault .readNeverAnswered ∧ ∃ x y : Coord, i = .convert x y ∧ s.cfg.readsPlanes x y ∧
      (s.cfg.yBase.toNat + lumaIndex s.cfg x y ∈ s.unanswered ∨
        s.cfg.uBase.toNat + chromaIndex s.cfg x y ∈ s.unanswered ∨
        s.cfg.vBase.toNat + chromaIndex s.cfg x y ∈ s.unanswered))

/-- R97: a step that executes a command, legal or not, takes that one command from the queue and appends exactly one
response, of the form R97 gives. -/
def Obligations.OneResponsePerCommand : Prop :=
  ∀ (s t : State), s.cmdQueue ≠ [] → s.rspQueue.length < Config.rspDepth → step s = .next t →
    t.cmdQueue = s.cmdQueue.tail ∧ ∃ r : RspWord, t.rspQueue = s.rspQueue ++ [r] ∧ legalResponse r

/-- R203: a command answered with error code `e`, an illegal word's among them, has set bit `e` of FAULT_STATUS,
appended that response with DATA 0, and changed nothing else (R202). -/
def Obligations.ErrorChangesOnlyItsStickyBit : Prop :=
  (∀ (i : Instr) (s t : State) (r : RspWord) (e : Err),
    exec i s = .next t → t.rspQueue = s.rspQueue ++ [r] → r.extractLsb' 60 4 = e.code →
    t = { s with
      rspQueue := s.rspQueue ++ [e.code ++ 0#60]
      cfg := { s.cfg with faultStatus := s.cfg.faultStatus ||| (1#32 <<< e.code.toNat) } }) ∧
  ∀ (s t : State) (c : CmdWord) (rest : List CmdWord) (r : RspWord) (e : Err),
    s.cmdQueue = c :: rest → step s = .next t → t.rspQueue = s.rspQueue ++ [r] → r.extractLsb' 60 4 = e.code →
    t = { s with
      cmdQueue := rest
      rspQueue := s.rspQueue ++ [e.code ++ 0#60]
      cfg := { s.cfg with faultStatus := s.cfg.faultStatus ||| (1#32 <<< e.code.toNat) } }

/-- A command answered `OK` leaves FAULT_STATUS as it was (R46, R48). -/
def Obligations.OkLeavesFaultStatus : Prop :=
  ∀ (i : Instr) (s t : State) (r : RspWord),
    exec i s = .next t → t.rspQueue = s.rspQueue ++ [r] → r.extractLsb' 60 4 = 0#4 →
    t.cfg.faultStatus = s.cfg.faultStatus

/-- R52: after reset every register is 0 and both queues are empty; a CONVERT before configuration
is refused with `ERR_CONFIG`, whatever the memory. -/
def Obligations.ResetValues : Prop :=
  (∀ i : RegIndex, i.toNat < 0xC → State.reset.cfg.read i = some 0) ∧
  State.reset.cmdQueue = [] ∧ State.reset.rspQueue = [] ∧
  ∀ (m : List Host.Cell) (a : List Nat) (x y : Coord),
    exec (.convert x y) { State.reset with mem := m, unanswered := a } = .next { State.reset with
      mem := m
      unanswered := a
      rspQueue := [0x3000000000000000]
      cfg := { State.reset.cfg with faultStatus := 0x8 } }

/-- R230, R231: reset puts every register at 0 and empties both queues, whatever was queued; no other event, of the
host, the platform or the converter, clears a bit of FAULT_STATUS. -/
def Obligations.OnlyResetClearsFaultStatus : Prop :=
  (∀ s : State, ∃ t : State, Event.reset.apply s = .next t ∧
    (∀ i : RegIndex, i.toNat < 0xC → t.cfg.read i = some 0) ∧ t.cmdQueue = [] ∧ t.rspQueue = []) ∧
  ∀ (e : Event) (s t : State), e ≠ .reset → e.apply s = .next t →
    t.cfg.faultStatus &&& s.cfg.faultStatus = s.cfg.faultStatus

/-- The reset state meets the invariant of the system; that its memory lists nothing is the model's choice
(notes/assumptions/2.md, 3.md). -/
def Obligations.ResetMeetsInv : Prop := State.reset.Inv

/-- Every step keeps the invariant of the system. -/
def Obligations.StepKeepsInv : Prop := ∀ s t : State, s.Inv → step s = .next t → t.Inv

/-- Every move of the host, the platform and the converter keeps the invariant of the system. -/
def Obligations.EventsKeepInv : Prop :=
  ∀ (e : Event) (s t : State), s.Inv → e.apply s = .next t → t.Inv

/-- R91, R97: with room in the queue an accepted word joins the end; the host takes the oldest response, none where
there is none; nothing else changes. -/
def Obligations.ChannelsKeepOrder : Prop :=
  ∀ (s : State) (w : CmdWord),
    (s.cmdQueue.length < Config.reqDepth → accept w s = some { s with cmdQueue := s.cmdQueue ++ [w] }) ∧
    (s.rspQueue = [] → take s = none) ∧
    ∀ r rest, s.rspQueue = r :: rest → take s = some (r, { s with rspQueue := rest })

/-- From an idle block one command is served whole (R15): accepted, executed and its response taken, the block idle
again; or it is a CONVERT that hangs (R238; notes/assumptions/3.md). -/
def Obligations.ServeLeavesBlockIdle : Prop :=
  ∀ (w : CmdWord) (s : State), s.idle →
    (∃ (r : RspWord) (t : State), serve w s = .next (r, t) ∧ t.idle ∧ legalResponse r) ∨
    (serve w s = .fault .readNeverAnswered ∧ ∃ x y : Coord, decode w = .ok (.convert x y))

/-- R213: commands queued together and executed by steps alone give exactly the responses and the registers of serving
them one at a time in acceptance order, as long as the response queue has room for them all. -/
def Obligations.QueuedRunEqualsServing : Prop :=
  ∀ (ws : List CmdWord) (s t : State) (rs : List RspWord), s.idle → ws.length ≤ Config.rspDepth →
    runProgram ws s = .next (rs, t) →
    Host.Core.run core ws.length { s with cmdQueue := ws } = .next { t with rspQueue := rs }

/-- R206: each command of a run has its own response, and after the run the sticky flag of an error is set exactly when
it was set before or some response of the run has that status: the flags are an OR over every error. -/
def Obligations.FaultStatusIsOrOfErrors : Prop :=
  ∀ (ws : List CmdWord) (s t : State) (rs : List RspWord), s.idle → runProgram ws s = .next (rs, t) →
    rs.length = ws.length ∧
    ∀ e : Err, t.cfg.sticky e = true ↔ s.cfg.sticky e = true ∨ ∃ r ∈ rs, rspStatus r = e.code

/-- R122, R213: the commands queued behind the oldest one, a CFGW among them, change nothing of what it does: with
any other commands behind it the step gives the same response, registers and memory, or the same hang, and it leaves
those commands in the queue. -/
def Obligations.LaterCommandsChangeNoEarlierResponse : Prop :=
  ∀ (s : State) (c : CmdWord) (rest rest' : List CmdWord), s.rspQueue.length < Config.rspDepth →
    (∃ (t : State) (r : RspWord), step { s with cmdQueue := c :: rest } = .next t ∧
      t.cmdQueue = rest ∧ t.rspQueue = s.rspQueue ++ [r] ∧
      step { s with cmdQueue := c :: rest' } = .next { t with cmdQueue := rest' }) ∨
    (step { s with cmdQueue := c :: rest } = .fault .readNeverAnswered ∧
      step { s with cmdQueue := c :: rest' } = .fault .readNeverAnswered)

/-- A host write, or a change of how an address answers, is what a read of that address then gives, and every other
address answers as before. The memory stands in State by the model's choice (notes/assumptions/1.md). -/
def Obligations.MemoryAnswersLastWrite : Prop :=
  ∀ (s : State) (a b : Word) (r : MemReply), Memory.wf s.mem s.unanswered →
    (setReply a r s).memRead b.toNat = if b = a then r else s.memRead b.toNat

/-- R72 items 3 and 5, and the host duty of R235 as the model has it (notes/assumptions/9.md): a change of an address
that a queued CONVERT reads, under the configuration its turn will find, is refused; every other change is made and
changes nothing of the block. -/
def Obligations.PlanesAreImmutableDuringConvert : Prop :=
  ∀ (s : State) (a : Word) (r : MemReply),
    let barred : Prop := ∃ (before after : List CmdWord) (x y : Coord) (f : RegFile),
      s.cmdQueue = before ++ encode (.convert x y) :: after ∧
      f = before.foldl (fun g w => match decode w with
        | .ok (.cfgw reg data) => (g.write reg data).getD g
        | _ => g) s.cfg ∧
      f.readsPlanes x y ∧
      (a.toNat = f.yBase.toNat + lumaIndex f x y ∨ a.toNat = f.uBase.toNat + chromaIndex f x y ∨
        a.toNat = f.vBase.toNat + chromaIndex f x y)
    (barred → Event.apply (.memory a r) s = .refused .planeWriteDuringConvert) ∧
    (¬ barred → Event.apply (.memory a r) s = .next (setReply a r s) ∧ (setReply a r s).toBlock = s.toBlock)

/-- R72 item 4: under the premise `planesImmutable` every CONVERT of a pass reads one snapshot of the planes: the same
moves with every write of the memory left out give the host the same responses and leave the same block, so those are
a function of the commands, the configuration and the snapshot; and no write of such a pass is refused. -/
def Obligations.PassReadsOneSnapshot : Prop :=
  ∀ (es : List Event) (s : State), Memory.wf s.mem s.unanswered → planesImmutable es s →
    (∀ (rs : List RspWord) (t : State), runEvents es s = .next (rs, t) →
      ∃ t' : State, runEvents (es.filter (fun e => match e with | .memory _ _ => false | _ => true)) s = .next (rs, t') ∧
        t'.toBlock = t.toBlock ∧ t'.toSourceMemory = s.toSourceMemory) ∧
    runEvents es s ≠ .refused .planeWriteDuringConvert
end

