-- ==== Sys2Proof/Laws/Decode.lean ====
section
/-! SUPPORT. Words as numbers: the fields the decoder takes out of a word, the words the encoder makes, and what the
masks of the opcode map keep. -/

namespace Sys2Proof

/-- A concatenation as a number. -/
theorem toNat_append_add {m n : Nat} (a : BitVec m) (b : BitVec n) :
    (a ++ b).toNat = a.toNat * 2 ^ n + b.toNat := by
  rw [BitVec.toNat_append, ← Nat.shiftLeft_add_eq_or_of_lt b.isLt, Nat.shiftLeft_eq]

/-- A field of a word as a number. -/
theorem toNat_extract {w : Nat} (c : BitVec w) (start len : Nat) :
    (c.extractLsb' start len).toNat = c.toNat / 2 ^ start % 2 ^ len := by
  rw [BitVec.extractLsb'_toNat, Nat.shiftRight_eq_div_pow]

theorem opField_toNat (c : CmdWord) : (opField c).toNat = c.toNat / 2 ^ 60 := by
  rw [opField, toNat_extract]; omega

theorem zeroFieldC_toNat (c : CmdWord) : (zeroFieldC c).toNat = c.toNat / 2 ^ 32 % 2 ^ 28 := toNat_extract ..

theorem zeroFieldWR_toNat (c : CmdWord) : (zeroFieldWR c).toNat = c.toNat / 2 ^ 36 % 2 ^ 24 := toNat_extract ..

theorem regField_toNat (c : CmdWord) : (regField c).toNat = c.toNat / 2 ^ 32 % 2 ^ 4 := toNat_extract ..

theorem dataField_toNat (c : CmdWord) : (dataField c).toNat = c.toNat % 2 ^ 32 := by
  rw [dataField, toNat_extract]; omega

theorem xField_toNat (c : CmdWord) : (xField c).toNat = c.toNat % 2 ^ 16 := by
  rw [xField, toNat_extract]; omega

theorem yField_toNat (c : CmdWord) : (yField c).toNat = c.toNat / 2 ^ 16 % 2 ^ 16 := toNat_extract ..

/-- The word of a CONVERT as a number (R93). -/
theorem encode_convert_toNat (x y : Coord) :
    (encode (.convert x y)).toNat = 2 ^ 60 + y.toNat * 2 ^ 16 + x.toNat := by
  simp only [encode, toNat_append_add, BitVec.toNat_ofNat]
  omega

/-- The word of a CFGW as a number (R94). -/
theorem encode_cfgw_toNat (reg : RegIndex) (data : Word) :
    (encode (.cfgw reg data)).toNat = 2 * 2 ^ 60 + reg.toNat * 2 ^ 32 + data.toNat := by
  simp only [encode, toNat_append_add, BitVec.toNat_ofNat]
  omega

/-- The word of a CFGR as a number (R95). -/
theorem encode_cfgr_toNat (reg : RegIndex) :
    (encode (.cfgr reg)).toNat = 3 * 2 ^ 60 + reg.toNat * 2 ^ 32 := by
  simp only [encode, toNat_append_add, BitVec.toNat_ofNat]
  omega

/-- A mask of all bits from `n` up keeps those bits. -/
theorem and_highMask {w : Nat} (c : BitVec w) (n : Nat) : c &&& (BitVec.allOnes w <<< n) = (c >>> n) <<< n := by
  ext i hi
  simp only [BitVec.getElem_and, BitVec.getElem_shiftLeft, BitVec.getElem_allOnes, BitVec.getElem_ushiftRight]
  by_cases h : i < n
  · simp [h]
  · simp [h, show n + (i - n) = i by omega, BitVec.getLsbD_eq_getElem hi]

/-- What CONVERT's mask keeps (R99). -/
theorem and_convertMask_toNat (c : CmdWord) :
    (c &&& 0xFFFFFFFF00000000).toNat = c.toNat / 2 ^ 32 * 2 ^ 32 := by
  rw [show (0xFFFFFFFF00000000 : CmdWord) = BitVec.allOnes 64 <<< 32 by decide, and_highMask, BitVec.toNat_shiftLeft,
    BitVec.toNat_ushiftRight, Nat.shiftRight_eq_div_pow, Nat.shiftLeft_eq]
  omega

/-- What CFGW's mask keeps (R99). -/
theorem and_cfgwMask_toNat (c : CmdWord) :
    (c &&& 0xFFFFFFF000000000).toNat = c.toNat / 2 ^ 36 * 2 ^ 36 := by
  rw [show (0xFFFFFFF000000000 : CmdWord) = BitVec.allOnes 64 <<< 36 by decide, and_highMask, BitVec.toNat_shiftLeft,
    BitVec.toNat_ushiftRight, Nat.shiftRight_eq_div_pow, Nat.shiftLeft_eq]
  omega

/-- What CFGR's mask keeps (R99). -/
theorem and_cfgrMask_toNat (c : CmdWord) :
    (c &&& 0xFFFFFFF0FFFFFFFF).toNat = c.toNat / 2 ^ 36 * 2 ^ 36 + c.toNat % 2 ^ 32 := by
  have high : c.toNat &&& (0xFFFFFFF000000000 : CmdWord).toNat = (c.toNat / 2 ^ 36) <<< 36 := by
    rw [← BitVec.toNat_and, and_cfgwMask_toNat, Nat.shiftLeft_eq]
  have low : c.toNat &&& (0xFFFFFFFF : CmdWord).toNat = c.toNat % 2 ^ 32 :=
    Nat.and_two_pow_sub_one_eq_mod c.toNat 32
  have bound : c.toNat % 2 ^ 32 < 2 ^ 36 := by omega
  rw [show (0xFFFFFFF0FFFFFFFF : CmdWord) = 0xFFFFFFF000000000 ||| 0xFFFFFFFF by decide, BitVec.toNat_and,
    BitVec.toNat_or, Nat.and_or_distrib_left, high, low, ← Nat.shiftLeft_add_eq_or_of_lt bound, Nat.shiftLeft_eq]

end Sys2Proof
end

