-- ==== Sys2Proof/Laws/Memory.lean ====
section
/-! SUPPORT. The source memory: reading after a change, and that every change keeps the canonical form. -/

namespace Sys2Proof.Machine

/-- The keys of a changed memory: the old ones, and the changed address where it now holds a byte. -/
theorem Memory.mem_put {a : Nat} {v : Option Byte} {cells : List Host.Cell} {c : Host.Cell}
    (h : c ∈ Memory.put a v cells) : c ∈ cells ∨ (c.1 = a ∧ v = some c.2) := by
  induction cells with
  | nil => cases v <;> simp_all [Memory.put, Memory.cons]
  | cons d rest ih =>
    simp only [Memory.put] at h
    split at h
    · rcases List.mem_cons.mp h with h | h
      · simp [h]
      · rcases ih h with h | h <;> simp [h]
    · split at h <;> cases v <;> simp only [Memory.cons, List.mem_cons] at h <;> aesop

/-- Changing the memory keeps its addresses strictly rising. -/
theorem Memory.put_rising (a : Nat) (v : Option Byte) (cells : List Host.Cell)
    (h : cells.Pairwise (fun c d => c.1 < d.1)) : (Memory.put a v cells).Pairwise (fun c d => c.1 < d.1) := by
  induction cells with
  | nil => cases v <;> simp [Memory.put, Memory.cons]
  | cons d rest ih =>
    obtain ⟨hd, hr⟩ := List.pairwise_cons.mp h
    simp only [Memory.put]
    split
    next hlt =>
      refine List.pairwise_cons.mpr ⟨fun c hc => ?_, ih hr⟩
      rcases Memory.mem_put hc with hc | ⟨rfl, -⟩
      · exact hd c hc
      · exact hlt
    next hge =>
      split
      next heq =>
        cases v with
        | none => exact hr
        | some b => exact List.pairwise_cons.mpr ⟨fun c hc => heq ▸ hd c hc, hr⟩
      next hne =>
        cases v with
        | none => exact h
        | some b =>
          refine List.pairwise_cons.mpr ⟨fun c hc => ?_, h⟩
          rcases List.mem_cons.mp hc with rfl | hc
          · simp only; omega
          · have := hd c hc; simp only; omega

/-- An address that no cell lists holds what an unlisted address holds. -/
theorem Memory.lookup_of_not_listed {cells : List Host.Cell} {a : Nat} (h : ∀ c ∈ cells, c.1 ≠ a) :
    Memory.lookup cells a = Memory.unlisted := by
  induction cells with
  | nil => rfl
  | cons d rest ih =>
    simp only [Memory.lookup]
    rw [if_neg (h d (by simp)), ih fun c hc => h c (by simp [hc])]

/-- Reading after a change: the changed address holds what was put there, every other address what it held. -/
theorem Memory.lookup_put (a k : Nat) (v : Option Byte) (cells : List Host.Cell)
    (h : cells.Pairwise (fun c d => c.1 < d.1)) :
    Memory.lookup (Memory.put a v cells) k = if k = a then v else Memory.lookup cells k := by
  induction cells with
  | nil => cases v <;> simp [Memory.put, Memory.cons, Memory.lookup, Memory.unlisted, eq_comm]
  | cons d rest ih =>
    obtain ⟨hd, hr⟩ := List.pairwise_cons.mp h
    have absent : ∀ k ≤ d.1, Memory.lookup rest k = none := fun k hk =>
      Memory.lookup_of_not_listed fun c hc => by have := hd c hc; omega
    simp only [Memory.put]
    split
    next hlt =>
      simp only [Memory.lookup, ih hr]
      split <;> split <;> first | rfl | omega
    next hge =>
      split
      next heq =>
        subst heq
        cases v with
        | none =>
          by_cases hk : k = d.1
          · subst hk; simp [Memory.cons, absent]
          · simp [Memory.cons, Memory.lookup, hk, Ne.symm hk]
        | some b =>
          by_cases hk : k = d.1
          · subst hk; simp [Memory.cons, Memory.lookup]
          · simp [Memory.cons, Memory.lookup, hk, Ne.symm hk]
      next hne =>
        cases v with
        | none =>
          by_cases hk : k = a
          · subst hk
            simp only [Memory.cons, if_true, Memory.lookup]
            rw [if_neg hne]
            exact absent k (by omega)
          · simp [Memory.cons, Memory.lookup, hk]
        | some b =>
          by_cases hk : k = a
          · subst hk; simp [Memory.cons, Memory.lookup]
          · simp [Memory.cons, Memory.lookup, hk, Ne.symm hk]

theorem Addrs.mem_insert {a k : Nat} {l : List Nat} : k ∈ Addrs.insert a l ↔ k = a ∨ k ∈ l := by
  induction l with
  | nil => simp [Addrs.insert]
  | cons d rest ih =>
    simp only [Addrs.insert]
    split
    · simp only [List.mem_cons, ih]; tauto
    · split
      next h => subst h; simp
      next => simp

theorem Addrs.insert_rising (a : Nat) (l : List Nat) (h : l.Pairwise (· < ·)) :
    (Addrs.insert a l).Pairwise (· < ·) := by
  induction l with
  | nil => simp [Addrs.insert]
  | cons d rest ih =>
    obtain ⟨hd, hr⟩ := List.pairwise_cons.mp h
    simp only [Addrs.insert]
    split
    next hlt =>
      refine List.pairwise_cons.mpr ⟨fun k hk => ?_, ih hr⟩
      rcases Addrs.mem_insert.mp hk with rfl | hk
      · exact hlt
      · exact hd k hk
    next hge =>
      split
      next => exact h
      next hne =>
        refine List.pairwise_cons.mpr ⟨fun k hk => ?_, h⟩
        rcases List.mem_cons.mp hk with rfl | hk
        · omega
        · have := hd k hk; omega

theorem Addrs.mem_remove {a k : Nat} {l : List Nat} (h : l.Pairwise (· < ·)) :
    k ∈ Addrs.remove a l ↔ k ≠ a ∧ k ∈ l := by
  induction l with
  | nil => simp [Addrs.remove]
  | cons d rest ih =>
    obtain ⟨hd, hr⟩ := List.pairwise_cons.mp h
    simp only [Addrs.remove]
    split
    next heq =>
      subst heq
      constructor
      · intro hk; have := hd k hk; exact ⟨by omega, by simp [hk]⟩
      · rintro ⟨hne, hk⟩; simpa [hne] using hk
    next hne =>
      simp only [List.mem_cons, ih hr]
      constructor
      · rintro (rfl | ⟨h1, h2⟩)
        · exact ⟨hne, Or.inl rfl⟩
        · exact ⟨h1, Or.inr h2⟩
      · rintro ⟨h1, rfl | h2⟩
        · exact Or.inl rfl
        · exact Or.inr ⟨h1, h2⟩

theorem Addrs.remove_sublist (a : Nat) (l : List Nat) : (Addrs.remove a l).Sublist l := by
  induction l with
  | nil => exact .slnil
  | cons d rest ih =>
    simp only [Addrs.remove]
    split
    · exact (List.Sublist.refl rest).cons d
    · exact ih.cons_cons d

/-- Every change of the source memory keeps its canonical form. -/
theorem setReply_wf (a : Word) (r : MemReply) (s : State) (h : Memory.wf s.mem s.unanswered) :
    Memory.wf (setReply a r s).mem (setReply a r s).unanswered := by
  obtain ⟨hm, hb, hu, hub, hd⟩ := h
  have ha : a.toNat < 2 ^ 32 := a.isLt
  have below : ∀ (v : Option Byte), ∀ c ∈ Memory.put a.toNat v s.mem, c.1 < 2 ^ 32 := fun v c hc =>
    (Memory.mem_put hc).elim (hb c) fun hc => hc.1 ▸ ha
  have listed : ∀ c ∈ Memory.put a.toNat none s.mem, c ∈ s.mem ∧ c.1 ≠ a.toNat := fun c hc => by
    refine ⟨(Memory.mem_put hc).elim id fun hc => by simp at hc, fun heq => ?_⟩
    have hl := Memory.lookup_put a.toNat a.toNat none s.mem hm
    rw [if_pos rfl] at hl
    have : ∀ {cells : List Host.Cell}, c ∈ cells → Memory.lookup cells c.1 ≠ none := by
      intro cells hc
      induction cells with
      | nil => cases hc
      | cons d rest ih =>
        simp only [Memory.lookup]
        split
        · simp
        · next hne =>
          rcases List.mem_cons.mp hc with rfl | hc
          · exact absurd rfl hne
          · exact ih hc
    exact this hc (heq ▸ hl)
  have removed : ∀ k ∈ Addrs.remove a.toNat s.unanswered, k ≠ a.toNat ∧ k ∈ s.unanswered := fun k hk =>
    (Addrs.mem_remove hu).mp hk
  cases r with
  | byte b =>
    refine ⟨Memory.put_rising _ _ _ hm, below _, hu.sublist (Addrs.remove_sublist _ _),
      fun k hk => hub k (removed k hk).2, fun c hc hk => ?_⟩
    rcases Memory.mem_put hc with hc | hc
    · exact hd c hc (removed _ hk).2
    · exact (removed _ hk).1 hc.1
  | busError =>
    exact ⟨Memory.put_rising _ _ _ hm, below _, hu.sublist (Addrs.remove_sublist _ _),
      fun k hk => hub k (removed k hk).2, fun c hc hk => hd c (listed c hc).1 (removed _ hk).2⟩
  | never =>
    refine ⟨Memory.put_rising _ _ _ hm, below _, Addrs.insert_rising _ _ hu, fun k hk => ?_, fun c hc hk => ?_⟩
    · rcases Addrs.mem_insert.mp hk with rfl | hk
      · exact ha
      · exact hub k hk
    · rcases Addrs.mem_insert.mp hk with hk | hk
      · exact (listed c hc).2 hk
      · exact hd c (listed c hc).1 hk

/-- The memory after reset is in canonical form. -/
theorem reset_memory_wf : Memory.wf State.reset.mem State.reset.unanswered := by decide

/-- An address the platform never answers gives no answer. -/
theorem memRead_of_unanswered {s : SourceMemory} {a : Nat} (h : a ∈ s.unanswered) : s.memRead a = .never := by
  simp [SourceMemory.memRead, h]

/-- A read is never answered exactly at the addresses listed so. -/
theorem memRead_eq_never {s : SourceMemory} {a : Nat} : s.memRead a = .never ↔ a ∈ s.unanswered := by
  unfold SourceMemory.memRead
  split
  · simp [*]
  · split <;> simp [*]

end Sys2Proof.Machine
end

