-- ==== Sys2Proof/Laws/State.lean ====
section
/-! SUPPORT. What each named update leaves in each field: one lemma per field, each true by unfolding the update once,
so that no proof unfolds a record update again. -/

namespace Sys2Proof.Machine

/-! ### The register file -/

@[simp] theorem RegFile.setSticky_faultStatus (f : RegFile) (e : Err) :
    (f.setSticky e).faultStatus = f.faultStatus ||| e.stickyFlag := rfl
@[simp] theorem RegFile.setSticky_width (f : RegFile) (e : Err) : (f.setSticky e).width = f.width := rfl
@[simp] theorem RegFile.setSticky_height (f : RegFile) (e : Err) : (f.setSticky e).height = f.height := rfl
@[simp] theorem RegFile.setSticky_yBase (f : RegFile) (e : Err) : (f.setSticky e).yBase = f.yBase := rfl
@[simp] theorem RegFile.setSticky_yRowStride (f : RegFile) (e : Err) : (f.setSticky e).yRowStride = f.yRowStride := rfl
@[simp] theorem RegFile.setSticky_uBase (f : RegFile) (e : Err) : (f.setSticky e).uBase = f.uBase := rfl
@[simp] theorem RegFile.setSticky_vBase (f : RegFile) (e : Err) : (f.setSticky e).vBase = f.vBase := rfl
@[simp] theorem RegFile.setSticky_uvPixelStride (f : RegFile) (e : Err) :
    (f.setSticky e).uvPixelStride = f.uvPixelStride := rfl
@[simp] theorem RegFile.setSticky_uvRowStride (f : RegFile) (e : Err) :
    (f.setSticky e).uvRowStride = f.uvRowStride := rfl
@[simp] theorem RegFile.setSticky_ySize (f : RegFile) (e : Err) : (f.setSticky e).ySize = f.ySize := rfl
@[simp] theorem RegFile.setSticky_uSize (f : RegFile) (e : Err) : (f.setSticky e).uSize = f.uSize := rfl
@[simp] theorem RegFile.setSticky_vSize (f : RegFile) (e : Err) : (f.setSticky e).vSize = f.vSize := rfl

/-- Reading a register after writing one. -/
theorem RegFile.get_set (f : RegFile) (r q : Reg) (v : Word) :
    (f.set r v).get q = if q = r then v else f.get q := by
  cases r <;> cases q <;> rfl

@[simp] theorem RegFile.get_set_self (f : RegFile) (r : Reg) (v : Word) : (f.set r v).get r = v := by
  simp [RegFile.get_set]

/-- Setting a sticky flag changes FAULT_STATUS alone. -/
theorem RegFile.get_setSticky (f : RegFile) (e : Err) (q : Reg) (h : q ≠ .faultStatus) :
    (f.setSticky e).get q = f.get q := by
  cases q <;> first | rfl | exact absurd rfl h

/-! ### Respond and raise -/

@[simp] theorem respond_toSourceMemory (st : Status) (d : Word) (s : State) :
    (respond st d s).toSourceMemory = s.toSourceMemory := rfl
@[simp] theorem raise_toSourceMemory (e : Err) (s : State) : (raise e s).toSourceMemory = s.toSourceMemory := rfl

@[simp] theorem respond_cfg (st : Status) (d : Word) (s : State) : (respond st d s).cfg = s.cfg := rfl
@[simp] theorem respond_cmdQueue (st : Status) (d : Word) (s : State) :
    (respond st d s).cmdQueue = s.cmdQueue := rfl
@[simp] theorem respond_rspQueue (st : Status) (d : Word) (s : State) :
    (respond st d s).rspQueue = s.rspQueue ++ [responseWord st d] := rfl
@[simp] theorem respond_mem (st : Status) (d : Word) (s : State) : (respond st d s).mem = s.mem := rfl
@[simp] theorem respond_unanswered (st : Status) (d : Word) (s : State) :
    (respond st d s).unanswered = s.unanswered := rfl

@[simp] theorem raise_cfg (e : Err) (s : State) : (raise e s).cfg = s.cfg.setSticky e := rfl
@[simp] theorem raise_cmdQueue (e : Err) (s : State) : (raise e s).cmdQueue = s.cmdQueue := rfl
@[simp] theorem raise_rspQueue (e : Err) (s : State) :
    (raise e s).rspQueue = s.rspQueue ++ [responseWord (.err e) 0] := rfl
@[simp] theorem raise_mem (e : Err) (s : State) : (raise e s).mem = s.mem := rfl
@[simp] theorem raise_unanswered (e : Err) (s : State) : (raise e s).unanswered = s.unanswered := rfl

/-! ### The memory and the host's moves -/

@[simp] theorem setReply_cfg (a : Word) (r : MemReply) (s : State) : (setReply a r s).cfg = s.cfg := by
  cases r <;> rfl
@[simp] theorem setReply_cmdQueue (a : Word) (r : MemReply) (s : State) :
    (setReply a r s).cmdQueue = s.cmdQueue := by cases r <;> rfl
@[simp] theorem setReply_rspQueue (a : Word) (r : MemReply) (s : State) :
    (setReply a r s).rspQueue = s.rspQueue := by cases r <;> rfl

@[simp] theorem setReply_toBlock (a : Word) (r : MemReply) (s : State) : (setReply a r s).toBlock = s.toBlock := by
  cases r <;> rfl

@[simp] theorem applyReset_toBlock (s : State) : (applyReset s).toBlock = Block.reset := rfl
@[simp] theorem applyReset_toSourceMemory (s : State) : (applyReset s).toSourceMemory = s.toSourceMemory := rfl
@[simp] theorem applyReset_cfg (s : State) : (applyReset s).cfg = RegFile.reset := rfl
@[simp] theorem applyReset_cmdQueue (s : State) : (applyReset s).cmdQueue = [] := rfl
@[simp] theorem applyReset_rspQueue (s : State) : (applyReset s).rspQueue = [] := rfl
@[simp] theorem applyReset_mem (s : State) : (applyReset s).mem = s.mem := rfl
@[simp] theorem applyReset_unanswered (s : State) : (applyReset s).unanswered = s.unanswered := rfl

@[simp] theorem placeCommand_cfg (w : CmdWord) (s : State) : (placeCommand w s).cfg = s.cfg := rfl
@[simp] theorem placeCommand_cmdQueue (w : CmdWord) (s : State) :
    (placeCommand w s).cmdQueue = w :: s.cmdQueue.tail := rfl
@[simp] theorem placeCommand_rspQueue (w : CmdWord) (s : State) : (placeCommand w s).rspQueue = [] := rfl
@[simp] theorem placeCommand_mem (w : CmdWord) (s : State) : (placeCommand w s).mem = s.mem := rfl
@[simp] theorem placeCommand_unanswered (w : CmdWord) (s : State) :
    (placeCommand w s).unanswered = s.unanswered := rfl

end Sys2Proof.Machine
end

