-- ==== Sys2Proof/Laws/Ops.lean ====
section
/-! SUPPORT. Once for each shared operation, everything it can do: responses, errors, the queues, the checks of CONVERT,
the three commands and the step. The provers cite these instead of unfolding. -/

namespace Sys2Proof.Machine

/-! ### Responses -/

/-- A response word as a number (R97). -/
theorem responseWord_toNat (st : Status) (d : Word) :
    (responseWord st d).toNat = st.code.toNat * 2 ^ 60 + d.toNat := by
  simp only [responseWord, toNat_append_add, BitVec.toNat_ofNat]
  omega

@[simp] theorem rspStatus_responseWord (st : Status) (d : Word) : rspStatus (responseWord st d) = st.code := by
  apply BitVec.eq_of_toNat_eq
  rw [rspStatus, toNat_extract, responseWord_toNat]
  have := st.code.isLt
  omega

@[simp] theorem rspZero_responseWord (st : Status) (d : Word) : rspZero (responseWord st d) = 0 := by
  apply BitVec.eq_of_toNat_eq
  rw [rspZero, toNat_extract, responseWord_toNat]
  simp only [BitVec.reduceToNat]
  omega

@[simp] theorem rspData_responseWord (st : Status) (d : Word) : rspData (responseWord st d) = d := by
  apply BitVec.eq_of_toNat_eq
  rw [rspData, toNat_extract, responseWord_toNat]
  omega

/-- An `OK` response is its DATA, zero-extended (R97, R98). -/
theorem responseWord_ok (d : Word) : responseWord .ok d = d.setWidth 64 := by
  apply BitVec.eq_of_toNat_eq
  rw [responseWord_toNat, BitVec.toNat_setWidth]
  simp only [Status.code, BitVec.reduceToNat]
  omega

theorem Err.code_injective {e e' : Err} (h : e.code = e'.code) : e = e' := by
  cases e <;> cases e' <;> first | rfl | exact absurd h (by decide)

theorem Err.code_ne_zero (e : Err) : e.code ≠ 0 := by cases e <;> decide

/-- Every response has the form R97 gives. -/
theorem legalResponse_ok (d : Word) : legalResponse (responseWord .ok d) := by
  simp [legalResponse, Status.code]

theorem legalResponse_err (e : Err) : legalResponse (responseWord (.err e) 0) := by
  cases e <;> simp [legalResponse, Status.code, Err.code]

/-! ### Sticky flags -/

/-- Setting one sticky flag sets that one and leaves the others (R202, R203). -/
theorem RegFile.sticky_setSticky (f : RegFile) (e e' : Err) :
    (f.setSticky e).sticky e' = (f.sticky e' || decide (e = e')) := by
  cases e <;> cases e' <;> simp [RegFile.sticky, RegFile.setSticky, Err.stickyFlag, Err.code]

/-- A sticky flag is no reserved bit (R46). -/
theorem Err.stickyFlag_reserved (e : Err) : e.stickyFlag &&& 0xFFFFFF81 = 0 := by cases e <;> decide

/-! ### The queues -/

theorem rspFull_eq_true {s : State} : rspFull s = true ↔ Config.rspDepth ≤ s.rspQueue.length := by
  simp [rspFull]

theorem rspFull_eq_false {s : State} : rspFull s = false ↔ s.rspQueue.length < Config.rspDepth := by
  simp [rspFull]

theorem Config.rspDepth_pos : 0 < Config.rspDepth := Nat.succ_pos _

theorem Config.reqDepth_pos : 0 < Config.reqDepth := Nat.succ_pos _

/-- No command is taken exactly while the response queue is full or no command waits. -/
theorem nextCommand_eq_none {s : State} :
    nextCommand s = none ↔ s.cmdQueue = [] ∨ Config.rspDepth ≤ s.rspQueue.length := by
  unfold nextCommand
  split
  next h => simp [rspFull_eq_true.mp h]
  next h =>
    have : ¬ Config.rspDepth ≤ s.rspQueue.length := by simpa [rspFull_eq_true] using h
    split <;> simp_all

/-- The command taken is the head of the queue. -/
theorem nextCommand_eq_some {s s' : State} {c : CmdWord} :
    nextCommand s = some (c, s') ↔
      s.rspQueue.length < Config.rspDepth ∧ ∃ rest, s.cmdQueue = c :: rest ∧ s' = { s with cmdQueue := rest } := by
  unfold nextCommand
  split
  next h => have := rspFull_eq_true.mp h; simp; omega
  next h =>
    have hr : s.rspQueue.length < Config.rspDepth := rspFull_eq_false.mp (by simpa using h)
    split
    next hq => simp [hq]
    next w rest hq => simp [hq, hr, eq_comm]

/-- A step with a command to take, by whether its word decodes. -/
theorem step_of_next {s : State} {c : CmdWord} {rest : List CmdWord} (hq : s.cmdQueue = c :: rest)
    (hr : s.rspQueue.length < Config.rspDepth) :
    step s = match decode c with
      | .ok i => exec i { s with cmdQueue := rest }
      | .error _ => .next (raise .opcode { s with cmdQueue := rest }) := by
  have h := nextCommand_eq_some.mpr ⟨hr, rest, hq, rfl⟩
  simp only [step, h]
  rfl

/-! ### The register file by index -/

/-- A CFGW writes the index it names and no other (R121). -/
theorem RegFile.read_write {f f' : RegFile} {i : RegIndex} {data : Word} (h : f.write i data = some f')
    (q : RegIndex) :
    f'.read q = if q = i then some (if i.toNat ≤ 1 then (data.extractLsb' 0 16).setWidth 32 else data)
      else f.read q := by
  revert h
  have cases16 : ∀ k : RegIndex, k = 0 ∨ k = 1 ∨ k = 2 ∨ k = 3 ∨ k = 4 ∨ k = 5 ∨ k = 6 ∨ k = 7 ∨ k = 8 ∨ k = 9 ∨
      k = 10 ∨ k = 11 ∨ k = 12 ∨ k = 13 ∨ k = 14 ∨ k = 15 := by decide
  rcases cases16 i with rfl | rfl | rfl | rfl | rfl | rfl | rfl | rfl | rfl | rfl | rfl | rfl | rfl | rfl | rfl | rfl <;>
    simp only [RegFile.write, Reg.ofIndex, Reg.written, BitVec.reduceToNat, Option.map, Option.some.injEq,
      reduceCtorEq, false_imp_iff] <;>
    rintro rfl <;>
    rcases cases16 q with rfl | rfl | rfl | rfl | rfl | rfl | rfl | rfl | rfl | rfl | rfl | rfl | rfl | rfl | rfl | rfl <;>
    rfl

/-- Which CFGW is refused (R121). -/
theorem RegFile.write_eq_none (f : RegFile) (i : RegIndex) (data : Word) :
    f.write i data = none ↔ 0xB ≤ i.toNat := by
  have cases16 : ∀ k : RegIndex, k = 0 ∨ k = 1 ∨ k = 2 ∨ k = 3 ∨ k = 4 ∨ k = 5 ∨ k = 6 ∨ k = 7 ∨ k = 8 ∨ k = 9 ∨
      k = 10 ∨ k = 11 ∨ k = 12 ∨ k = 13 ∨ k = 14 ∨ k = 15 := by decide
  rcases cases16 i with rfl | rfl | rfl | rfl | rfl | rfl | rfl | rfl | rfl | rfl | rfl | rfl | rfl | rfl | rfl | rfl <;>
    simp [RegFile.write, Reg.ofIndex, Reg.written]

/-- Which CFGR is refused (R124). -/
theorem RegFile.read_eq_none (f : RegFile) (i : RegIndex) : f.read i = none ↔ 0xC ≤ i.toNat := by
  have cases16 : ∀ k : RegIndex, k = 0 ∨ k = 1 ∨ k = 2 ∨ k = 3 ∨ k = 4 ∨ k = 5 ∨ k = 6 ∨ k = 7 ∨ k = 8 ∨ k = 9 ∨
      k = 10 ∨ k = 11 ∨ k = 12 ∨ k = 13 ∨ k = 14 ∨ k = 15 := by decide
  rcases cases16 i with rfl | rfl | rfl | rfl | rfl | rfl | rfl | rfl | rfl | rfl | rfl | rfl | rfl | rfl | rfl | rfl <;>
    simp [RegFile.read, Reg.ofIndex]

/-- An error changes no register a CFGW can write (R202). -/
theorem RegFile.read_setSticky (f : RegFile) (e : Err) (q : RegIndex) (h : q ≠ 0xB) :
    (f.setSticky e).read q = f.read q := by
  have cases16 : ∀ k : RegIndex, k = 0 ∨ k = 1 ∨ k = 2 ∨ k = 3 ∨ k = 4 ∨ k = 5 ∨ k = 6 ∨ k = 7 ∨ k = 8 ∨ k = 9 ∨
      k = 10 ∨ k = 11 ∨ k = 12 ∨ k = 13 ∨ k = 14 ∨ k = 15 := by decide
  rcases cases16 q with rfl | rfl | rfl | rfl | rfl | rfl | rfl | rfl | rfl | rfl | rfl | rfl | rfl | rfl | rfl | rfl <;>
    first | rfl | exact absurd rfl h

/-- A CFGW leaves FAULT_STATUS, and keeps the reserved bits of WIDTH and HEIGHT 0 (R35, R36, R46). -/
theorem RegFile.write_keeps_reserved {f f' : RegFile} {i : RegIndex} {data : Word} (h : f.write i data = some f') :
    f'.faultStatus = f.faultStatus ∧
    (f.width.extractLsb' 16 16 = 0 → f'.width.extractLsb' 16 16 = 0) ∧
    (f.height.extractLsb' 16 16 = 0 → f'.height.extractLsb' 16 16 = 0) := by
  have zext : ((data.extractLsb' 0 16).setWidth 32).extractLsb' 16 16 = 0 := by
    apply BitVec.eq_of_toNat_eq
    rw [toNat_extract, BitVec.toNat_setWidth, toNat_extract]
    simp only [BitVec.reduceToNat]
    omega
  revert h
  simp only [RegFile.write]
  split
  · simp
  · next r _ =>
    cases r <;> simp only [Reg.written, Option.map, Option.some.injEq, reduceCtorEq, false_imp_iff] <;> rintro rfl <;>
      simp_all [RegFile.set]

/-! ### The checks of CONVERT -/

theorem badConfig_eq_false {f : RegFile} : badConfig f = false ↔ f.configOk := by
  simp only [badConfig, Bool.or_eq_false_iff, decide_eq_false_iff_not]
  simp only [RegFile.configOk, RegFile.w, RegFile.h]
  omega

theorem badCoord_eq_false {f : RegFile} {x y : Coord} : badCoord f x y = false ↔ f.inDomain x y := by
  simp only [badCoord, Bool.or_eq_false_iff, decide_eq_false_iff_not]
  simp only [RegFile.inDomain, RegFile.w, RegFile.h]
  omega

theorem planesInBounds_eq_true {f : RegFile} {x y : Coord} : planesInBounds f x y = true ↔ f.inBuffers x y := by
  simp [planesInBounds, RegFile.inBuffers, inBounds, and_assoc]

/-- The checks in the order of R204: the first that fails names the error, and with none failing the three addresses
of R146 are read. -/
theorem translate_spec (f : RegFile) (x y : Coord) :
    (¬ f.configOk ∧ translate f x y = .error .config) ∨
    (f.configOk ∧ ¬ f.inDomain x y ∧ translate f x y = .error .coord) ∨
    (f.configOk ∧ f.inDomain x y ∧ ¬ f.inBuffers x y ∧ translate f x y = .error .bounds) ∨
    (f.readsPlanes x y ∧ translate f x y = .ok (planeAddrs f x y)) := by
  unfold translate RegFile.readsPlanes
  rcases h₁ : badConfig f with _ | _
  · rcases h₂ : badCoord f x y with _ | _
    · rcases h₃ : planesInBounds f x y with _ | _
      · have : ¬ f.inBuffers x y := fun h => by simp [planesInBounds_eq_true.mpr h] at h₃
        simp_all [badConfig_eq_false, badCoord_eq_false]
      · simp_all [badConfig_eq_false, badCoord_eq_false, planesInBounds_eq_true]
    · have : ¬ f.inDomain x y := fun h => by simp [badCoord_eq_false.mpr h] at h₂
      simp_all [badConfig_eq_false]
  · have : ¬ f.configOk := fun h => by simp [badConfig_eq_false.mpr h] at h₁
    simp_all

theorem translate_of_readsPlanes {f : RegFile} {x y : Coord} (h : f.readsPlanes x y) :
    translate f x y = .ok (planeAddrs f x y) := by
  rcases translate_spec f x y with ⟨h', -⟩ | ⟨-, h', -⟩ | ⟨-, -, h', -⟩ | ⟨-, h'⟩
  · exact absurd h.1 h'
  · exact absurd h.2.1 h'
  · exact absurd h.2.2 h'
  · exact h'

theorem translate_of_refused {f : RegFile} {x y : Coord} (h : ¬ f.readsPlanes x y) :
    ∃ e, translate f x y = .error e := by
  rcases translate_spec f x y with ⟨-, h'⟩ | ⟨-, -, h'⟩ | ⟨-, -, -, h'⟩ | ⟨h', -⟩
  · exact ⟨_, h'⟩
  · exact ⟨_, h'⟩
  · exact ⟨_, h'⟩
  · exact absurd h' h

/-- What the three reads come to, by the replies (R147). -/
theorem PlaneData.ofReplies_spec (a b c : MemReply) :
    ((a = .never ∨ b = .never ∨ c = .never) ∧ PlaneData.ofReplies a b c = .never) ∨
    ((a ≠ .never ∧ b ≠ .never ∧ c ≠ .never) ∧ (a = .busError ∨ b = .busError ∨ c = .busError) ∧
      PlaneData.ofReplies a b c = .busError) ∨
    ∃ y u v, a = .byte y ∧ b = .byte u ∧ c = .byte v ∧ PlaneData.ofReplies a b c = .samples y u v := by
  cases a <;> cases b <;> cases c <;> simp [PlaneData.ofReplies]

/-! ### The commands -/

/-- Everything a command can do when it is answered: take an error, or answer `OK` with the registers as they were, but
for a CFGW that wrote one. -/
theorem exec_next_cases {i : Instr} {s t : State} (h : exec i s = .next t) :
    (∃ e, t = raise e s) ∨
    ∃ f d, t = respond .ok d { s with cfg := f } ∧
      (f = s.cfg ∨ ∃ reg data, i = .cfgw reg data ∧ s.cfg.write reg data = some f) := by
  cases i with
  | convert x y =>
    simp only [exec, execConvert] at h
    split at h
    · cases h; exact .inl ⟨_, rfl⟩
    · split at h
      · cases h
      · cases h; exact .inl ⟨_, rfl⟩
      · cases h; exact .inr ⟨s.cfg, _, rfl, .inl rfl⟩
  | cfgw reg data =>
    simp only [exec, execCfgw] at h
    split at h
    · cases h; exact .inl ⟨_, rfl⟩
    · next f hf => cases h; exact .inr ⟨f, 0, rfl, .inr ⟨reg, data, rfl, hf⟩⟩
  | cfgr reg =>
    simp only [exec, execCfgr] at h
    split at h
    · cases h; exact .inl ⟨_, rfl⟩
    · next v _ => cases h; exact .inr ⟨s.cfg, v, rfl, .inl rfl⟩

/-- The only way a command is not answered: a CONVERT past its checks one of whose reads is never answered (R238). -/
theorem exec_next_or_hang (i : Instr) (s : State) :
    (∃ t, exec i s = .next t) ∨
    (exec i s = .fault .readNeverAnswered ∧ ∃ x y, i = .convert x y ∧ s.cfg.readsPlanes x y ∧
      (s.memRead (planeAddrs s.cfg x y).y = .never ∨ s.memRead (planeAddrs s.cfg x y).u = .never ∨
        s.memRead (planeAddrs s.cfg x y).v = .never)) := by
  cases i with
  | convert x y =>
    simp only [exec, execConvert]
    rcases translate_spec s.cfg x y with ⟨-, h⟩ | ⟨-, -, h⟩ | ⟨-, -, -, h⟩ | ⟨hr, h⟩
    · exact .inl ⟨_, by rw [h]⟩
    · exact .inl ⟨_, by rw [h]⟩
    · exact .inl ⟨_, by rw [h]⟩
    · simp only [h, readPlanes]
      rcases PlaneData.ofReplies_spec (s.memRead (planeAddrs s.cfg x y).y) (s.memRead (planeAddrs s.cfg x y).u)
        (s.memRead (planeAddrs s.cfg x y).v) with ⟨hn, h'⟩ | ⟨-, -, h'⟩ | ⟨sy, su, sv, -, -, -, h'⟩
      · exact .inr ⟨by rw [h'], x, y, rfl, hr, hn⟩
      · exact .inl ⟨_, by rw [h']⟩
      · exact .inl ⟨_, by rw [h']⟩
  | cfgw reg data =>
    simp only [exec, execCfgw]
    cases s.cfg.write reg data <;> exact .inl ⟨_, rfl⟩
  | cfgr reg =>
    simp only [exec, execCfgr]
    cases s.cfg.read reg <;> exact .inl ⟨_, rfl⟩

/-- Everything a step can do when it answers: wait, or take the head of the queue and answer it, with an error or with
`OK`. -/
theorem step_next_cases {s t : State} (h : step s = .next t) :
    ((s.cmdQueue = [] ∨ Config.rspDepth ≤ s.rspQueue.length) ∧ t = s) ∨
    ∃ c rest, s.cmdQueue = c :: rest ∧ s.rspQueue.length < Config.rspDepth ∧
      ((∃ e, t = raise e { s with cmdQueue := rest }) ∨
        ∃ f d, t = respond .ok d { s with cmdQueue := rest, cfg := f } ∧
          (f = s.cfg ∨ ∃ reg data, decode c = .ok (.cfgw reg data) ∧ s.cfg.write reg data = some f)) := by
  unfold step at h
  split at h
  next hn => cases h; exact .inl ⟨nextCommand_eq_none.mp hn, rfl⟩
  next c s' hn =>
    obtain ⟨hr, rest, hq, rfl⟩ := nextCommand_eq_some.mp hn
    refine .inr ⟨c, rest, hq, hr, ?_⟩
    split at h
    next i hi =>
      rcases exec_next_cases h with ⟨e, rfl⟩ | ⟨f, d, rfl, hf⟩
      · exact .inl ⟨e, rfl⟩
      · refine .inr ⟨f, d, rfl, hf.imp id ?_⟩
        rintro ⟨reg, data, rfl, hw⟩
        exact ⟨reg, data, hi, hw⟩
    next => cases h; exact .inl ⟨.opcode, rfl⟩

end Sys2Proof.Machine
end

