-- ==== Sys2Proof/Laws/PerInstr.lean ====
section
/-! SUPPORT. Per-instruction families: statements about each command as syntax, one lemma per constructor. -/

namespace Sys2Proof.Laws

/-- Family TableRow (30_encoding.md R99): a command is well formed, its row stands in the opcode map, and its word
matches that row. -/
def TableRow.Statement (i : Instr) : Prop :=
  i.wf = true ∧ i.row ∈ opcodeTable ∧ i.row.accepts (encode i) = true

theorem TableRow.convert (x y : Coord) : TableRow.Statement (.convert x y) := by
  refine ⟨by simp [Instr.wf, Instr.toLine, AsmLine.wf, x.isLt, y.isLt], by simp [Instr.row, opcodeTable], ?_⟩
  refine beq_iff_eq.mpr (BitVec.eq_of_toNat_eq ?_)
  simp only [Instr.row, and_convertMask_toNat, encode_convert_toNat, BitVec.reduceToNat]
  omega

theorem TableRow.cfgw (reg : RegIndex) (data : Word) : TableRow.Statement (.cfgw reg data) := by
  refine ⟨by simp [Instr.wf, Instr.toLine, AsmLine.wf, reg.isLt, data.isLt], by simp [Instr.row, opcodeTable], ?_⟩
  refine beq_iff_eq.mpr (BitVec.eq_of_toNat_eq ?_)
  simp only [Instr.row, and_cfgwMask_toNat, encode_cfgw_toNat, BitVec.reduceToNat]
  omega

theorem TableRow.cfgr (reg : RegIndex) : TableRow.Statement (.cfgr reg) := by
  refine ⟨by simp [Instr.wf, Instr.toLine, AsmLine.wf, reg.isLt], by simp [Instr.row, opcodeTable], ?_⟩
  refine beq_iff_eq.mpr (BitVec.eq_of_toNat_eq ?_)
  simp only [Instr.row, and_cfgrMask_toNat, encode_cfgr_toNat, BitVec.reduceToNat]
  omega

end Sys2Proof.Laws
end

