-- ==== Sys2Proof/Laws/System.lean ====
section
/-! SUPPORT. The block beside its memory: which addresses the queued commands read, and that a step sees the memory at
those addresses alone. -/

namespace Sys2Proof.Machine

/-! ### Which addresses are read -/

/-- The three addresses of a CONVERT that passes its checks (R147); one that fails reads nothing (R69). -/
theorem mem_convertReads {f : RegFile} {x y : Coord} {a : Nat} :
    a ∈ convertReads f x y ↔ f.readsPlanes x y ∧
      (a = (planeAddrs f x y).y ∨ a = (planeAddrs f x y).u ∨ a = (planeAddrs f x y).v) := by
  rcases translate_spec f x y with ⟨h, ht⟩ | ⟨-, h, ht⟩ | ⟨-, -, h, ht⟩ | ⟨h, ht⟩ <;>
    simp [convertReads, ht, RegFile.readsPlanes] at h ⊢ <;> tauto

/-- The registers 0x0 to 0xA are all that the addresses depend on. -/
theorem convertReads_setSticky (f : RegFile) (e : Err) (x y : Coord) :
    convertReads (f.setSticky e) x y = convertReads f x y := rfl

/-- The registers a command of the queue leaves to the commands behind it, its sticky bit aside. -/
theorem queuedReads_cons (f : RegFile) (w : CmdWord) (ws : List CmdWord) :
    queuedReads f (w :: ws) =
      queuedReads f [w] ++ queuedReads (match decode w with
        | .ok (.cfgw reg data) => (f.write reg data).getD f
        | _ => f) ws := by
  simp only [queuedReads]
  split <;> simp_all

/-! ### A step sees the memory through its reads -/

/-- Two memories that answer the three addresses alike give a CONVERT the same samples. -/
theorem readPlanes_congr {m m' : SourceMemory} {a : PlaneAddrs} (hy : m'.memRead a.y = m.memRead a.y)
    (hu : m'.memRead a.u = m.memRead a.u) (hv : m'.memRead a.v = m.memRead a.v) : readPlanes m' a = readPlanes m a := by
  rw [readPlanes, readPlanes, hy, hu, hv]

/-- The outcome of a step with another memory put in the place of its own. -/
def withMemory (m : SourceMemory) : Host.Outcome State Fault Refusal → Host.Outcome State Fault Refusal
  | .next t => .next { t with toSourceMemory := m }
  | .fault r => .fault r
  | .refused r => .refused r

/-- A command does with another memory what it does with its own, where the two answer alike what it reads. -/
theorem exec_withMemory (i : Instr) (s : State) (m : SourceMemory)
    (h : ∀ x y, i = .convert x y → ∀ a ∈ convertReads s.cfg x y, m.memRead a = s.memRead a) :
    exec i { s with toSourceMemory := m } = withMemory m (exec i s) := by
  cases i with
  | convert x y =>
    have h := h x y rfl
    simp only [convertReads] at h
    simp only [exec, execConvert]
    rcases ht : translate s.cfg x y with e | a
    · rfl
    · rw [ht] at h
      simp only [readPlanes_congr (h a.y (by simp)) (h a.u (by simp)) (h a.v (by simp))]
      cases readPlanes s.toSourceMemory a <;> rfl
  | cfgw reg data =>
    simp only [exec, execCfgw]
    cases s.cfg.write reg data <;> rfl
  | cfgr reg =>
    simp only [exec, execCfgr]
    cases s.cfg.read reg <;> rfl

/-- A step does with another memory what it does with its own, where the two answer alike what the queue reads. -/
theorem step_withMemory (s : State) (m : SourceMemory)
    (h : ∀ a ∈ queuedReads s.cfg s.cmdQueue, m.memRead a = s.memRead a) :
    step { s with toSourceMemory := m } = withMemory m (step s) := by
  by_cases hr : s.rspQueue.length < Config.rspDepth
  · rcases hq : s.cmdQueue with _ | ⟨c, rest⟩
    · have hn : nextCommand s = none := nextCommand_eq_none.mpr (.inl hq)
      have hn' : nextCommand { s with toSourceMemory := m } = none := nextCommand_eq_none.mpr (.inl hq)
      simp only [step, hn, hn', withMemory]
    · rw [step_of_next hq hr, step_of_next (s := { s with toSourceMemory := m }) hq hr]
      rw [hq] at h
      rcases hd : decode c with e | i
      · rfl
      · refine exec_withMemory i { s with cmdQueue := rest } m fun x y hi a ha => h a ?_
        subst hi
        simp only [queuedReads, hd]
        exact List.mem_append_left _ ha
  · have hf : Config.rspDepth ≤ s.rspQueue.length := by omega
    have hn : nextCommand s = none := nextCommand_eq_none.mpr (.inr hf)
    have hn' : nextCommand { s with toSourceMemory := m } = none := nextCommand_eq_none.mpr (.inr hf)
    simp only [step, hn, hn', withMemory]

end Sys2Proof.Machine
end

