-- ==== Sys2Proof/Tests/Slice0.lean ====
section
/-! SUPPORT. Tests of the model, each expected value from spec/ (95_test_vectors.md unless another file is named), the
smoke test of the well-formedness checks, and for every statement with hypotheses a witness that meets them. -/

namespace Sys2Proof.Tests

open Sys2Proof.Machine

/-! ### Helpers -/

/-- The next state of an outcome, if it is one. -/
def nextOf {φ ρ : Type} : Host.Outcome State φ ρ → Option State
  | .next s => some s
  | _ => none

/-- The responses and FAULT_STATUS an outcome leaves. -/
def answer {φ ρ : Type} (o : Host.Outcome State φ ρ) : Option (List RspWord × Word) :=
  (nextOf o).map fun s => (s.rspQueue, s.cfg.faultStatus)

/-- The configuration of program P1: a planar 4x4 frame. -/
def p1Cfg : RegFile :=
  { RegFile.reset with
    width := 4, height := 4, yBase := 0x1000, yRowStride := 4, uBase := 0x2000, vBase := 0x3000
    uvPixelStride := 1, uvRowStride := 2, ySize := 16, uSize := 4, vSize := 4 }

/-- Program P1's block after its configuration, with the bytes that the pixels (0,0), (3,1) and (3,3) read. -/
def p1 : State :=
  { State.reset with
    cfg := p1Cfg
    mem := [(0x1000, 128), (0x1007, 180), (0x100F, 128), (0x2000, 128), (0x2001, 0), (0x2003, 90),
      (0x3000, 128), (0x3001, 255), (0x3003, 240)] }

/-- The block of a state with one command waiting. -/
def withCommand (c : CmdWord) (s : State) : State := { s with cmdQueue := [c] }

/-- A 3x1 frame in planar layout: chroma columns (10, 30) and (20, 40). -/
def planar : State :=
  { State.reset with
    cfg := { RegFile.reset with
      width := 3, height := 1, yBase := 0x10, yRowStride := 3, uBase := 0x20, vBase := 0x30
      uvPixelStride := 1, ySize := 3, uSize := 2, vSize := 2 }
    mem := [(0x10, 1), (0x11, 2), (0x12, 3), (0x20, 10), (0x21, 20), (0x30, 30), (0x31, 40)] }

/-- The same frame with interleaved chroma, U at 0x40 and V at 0x41 (00_scope.md R14). -/
def interleaved : State :=
  { State.reset with
    cfg := { planar.cfg with uBase := 0x40, vBase := 0x41, uvPixelStride := 2, uSize := 3, vSize := 3 }
    mem := [(0x10, 1), (0x11, 2), (0x12, 3), (0x40, 10), (0x41, 30), (0x42, 20), (0x43, 40)] }

/-! ### Well-formedness: one ill-formed line for each check (30_encoding.md R103) -/

theorem smoke_convert_x : (AsmLine.convert 65536 0).wf = false := by decide
theorem smoke_convert_y : (AsmLine.convert 0 65536).wf = false := by decide
theorem smoke_cfgw_reg : (AsmLine.cfgw 16 0).wf = false := by decide
theorem smoke_cfgw_imm : (AsmLine.cfgw 0 0x100000000).wf = false := by decide
theorem smoke_cfgr_reg : (AsmLine.cfgr 16).wf = false := by decide
theorem smoke_dword_imm : (AsmLine.dword 0x10000000000000000).wf = false := by decide
theorem smoke_largest_operands : (AsmLine.convert 65535 65535).wf = true ∧ (AsmLine.cfgw 15 0xFFFFFFFF).wf = true := by
  decide
theorem smoke_refused_line : assemble (.convert 65536 0) = .error .range := by decide

/-! ### Decoding: words written out field by field from R92's table -/

/-- OP 0001, zero, Y = 0x8001, X = 0x4002. -/
theorem test_decode_convert :
    decode 0b0001000000000000000000000000000010000000000000010100000000000010 = .ok (.convert 0x4002 0x8001) := by
  decide
/-- OP 0010, zero, REG = 1010, DATA = 0x80000001. -/
theorem test_decode_cfgw :
    decode 0b0010000000000000000000000000101010000000000000000000000000000001 = .ok (.cfgw 0xA 0x80000001) := by decide
/-- OP 0011, zero, REG = 1011, zero. -/
theorem test_decode_cfgr :
    decode 0b0011000000000000000000000000101100000000000000000000000000000000 = .ok (.cfgr 0xB) := by decide
/-- Section 2.5: one-bit variants of CONVERT 0, 0 that are illegal. -/
theorem test_decode_illegal_bits :
    [0x1000000100000000, 0x1000000800000000, 0x1000001000000000, 0x1800000000000000, 0x0, 0x5000000000000000,
      0x9000000000000000, 0xFFFFFFFFFFFFFFFF, 0x4000000000000000, 0xF000000000000000, 0x2000001000000000,
      0x200000F000000000, 0x3000000000000001, 0x3000001000000000].all (fun c => (decode c).toOption.isNone) = true := by
  decide
theorem test_table_word :
    decodeTableWord 64 0x2000000F00000001 = some (.cfgw 0xF 1) ∧ decodeTableWord 64 0 = none := by decide
/-- R103's examples, as text. -/
theorem test_assembler_examples :
    assembleLine "CONVERT 3, 2".toList = .ok (some 0x1000000000020003) ∧
    assembleLine "cfgw V_BASE, 0x1001 ; the V plane".toList = .ok (some 0x2000000500001001) ∧
    assembleLine "CFGR FAULT_STATUS".toList = .ok (some 0x3000000B00000000) := by decide

/-! ### CONVERT -/

/-- Program P1, command 15: pixel (3, 1), red clamped high, blue clamped low. -/
theorem test_convert_clamps :
    answer (exec (.convert 3 1) p1) = some ([0x00000000FF0085FF], 0) := by decide
/-- Section 2.3: U_BASE 0xFFFFFFFD and index 3 make the address 2^32: no wrap. -/
theorem test_convert_no_wrap :
    answer (exec (.convert 3 3) { p1 with cfg := { p1Cfg with uBase := 0xFFFFFFFD } }) =
      some ([0x5000000000000000], 0x20) := by decide

/-! ### CFGW and CFGR -/

/-- R121's corner case: CFGW WIDTH, 0x12340005 makes WIDTH 5. -/
theorem test_cfgw_width :
    (nextOf (exec (.cfgw 0x0 0x12340005) State.reset)).map (fun s => (s.cfg.width, s.rspQueue)) = some (5, [0]) := by
  decide
/-- Section 2.4, command 5: FAULT_STATUS is read-only. -/
theorem test_cfgw_fault_status :
    answer (exec (.cfgw 0xB 0xFFFFFFFF) State.reset) = some ([0x2000000000000000], 0x4) := by decide
/-- Section 2.4, command 4. -/
theorem test_cfgr_y_base :
    answer (exec (.cfgr 0x2) { State.reset with cfg := { RegFile.reset with yBase := 0xFFFFFFFF } }) =
      some ([0x00000000FFFFFFFF], 0) := by decide
/-- Program P3, command 9: a reserved index. -/
theorem test_cfgr_reserved :
    answer (exec (.cfgr 0xC) State.reset) = some ([0x2000000000000000], 0x4) := by decide

/-! ### The machine -/

/-- Program P3, command 10: the all-zero word, as the first command after reset. -/
theorem test_step_illegal :
    answer (step (State.reset.withFetchWord 64 0)) = some ([0x1000000000000000], 0x2) := by decide
/-- Section 2.6: CONVERT after reset. -/
theorem test_step_convert_after_reset :
    answer (step (State.reset.withFetchWord 64 0x1000000000050005)) = some ([0x3000000000000000], 0x8) := by decide
/-- A command served after one that left its response to be taken. -/
theorem test_serve :
    (match serve 0x3000000200000000 p1 with
      | .next (r, t) => some (r, t.rspQueue)
      | _ => none) = some (0x0000000000001000, []) := by decide
/-- Section 2.1, rows 1 to 3 of the CSC table. -/
theorem test_convertPixel :
    convertPixel 0 0 0 = 0xFF008700 ∧ convertPixel 255 255 255 = 0xFFFF76FF ∧
    convertPixel 41 240 110 = 0xFFEF0D10 := by decide
/-- R33: register r at byte offset 4r. -/
theorem test_byteOffset : Reg.faultStatus.byteOffset = 0x2C := by decide
/-- R34: the index of a register names it. -/
theorem test_index : ∀ i : RegIndex, (Reg.ofIndex i).all (fun r => r.index == i) = true := by decide
/-- Writing what an unlisted address reads as removes the entry. -/
theorem test_put_removes : Memory.put 5 none [(4, 1), (5, 2), (6, 3)] = [(4, 1), (6, 3)] := by decide
/-- A byte stored out of order keeps the addresses rising. -/
theorem test_put_rises : Memory.put 5 (some 9) [(4, 1), (6, 3)] = [(4, 1), (5, 9), (6, 3)] := by decide

/-! ### Witnesses: a state and operands that meet all the hypotheses of each statement, clause by clause -/

theorem witness_EncodeOfDecode : decode 0x2000000300000008 = .ok (.cfgw 0x3 8) := by decide

theorem witness_OpcodeMapDecides :
    (0x10000000FFFFFFFF : CmdWord) &&& 0xFFFFFFFF00000000 = 0x1000000000000000 ∧
    (0x2000000FFFFFFFFF : CmdWord) &&& 0xFFFFFFF000000000 = 0x2000000000000000 ∧
    (0x3000000F00000000 : CmdWord) &&& 0xFFFFFFF0FFFFFFFF = 0x3000000000000000 ∧
    ((0x1000000100000000 : CmdWord) &&& 0xFFFFFFFF00000000 ≠ 0x1000000000000000 ∧
      (0x1000000100000000 : CmdWord) &&& 0xFFFFFFF000000000 ≠ 0x2000000000000000 ∧
      (0x1000000100000000 : CmdWord) &&& 0xFFFFFFF0FFFFFFFF ≠ 0x3000000000000000) := by decide

/-- Each kind of R100 at its boundary: OP 0, 4 and 15; bits 32 and 59 of format C; bits 36 and 59 of format W; bits 36
and 0 of format R; and a state that takes such a word. -/
theorem witness_IllegalWordTakesErrOpcode :
    (0x0000000000000000 : CmdWord).extractLsb' 60 4 = 0x0#4 ∧
    4 ≤ ((0x4000000000000000 : CmdWord).extractLsb' 60 4).toNat ∧
    4 ≤ ((0xF000000000000000 : CmdWord).extractLsb' 60 4).toNat ∧
    ((0x1000000100000000 : CmdWord).extractLsb' 60 4 = 0x1#4 ∧
      (0x1000000100000000 : CmdWord).extractLsb' 32 28 ≠ 0#28) ∧
    ((0x2000001000000000 : CmdWord).extractLsb' 60 4 = 0x2#4 ∧
      (0x2000001000000000 : CmdWord).extractLsb' 36 24 ≠ 0#24) ∧
    ((0x2800000000000000 : CmdWord).extractLsb' 60 4 = 0x2#4 ∧
      (0x2800000000000000 : CmdWord).extractLsb' 36 24 ≠ 0#24) ∧
    ((0x3000001000000000 : CmdWord).extractLsb' 60 4 = 0x3#4 ∧
      (0x3000001000000000 : CmdWord).extractLsb' 36 24 ≠ 0#24) ∧
    ((0x3000000000000001 : CmdWord).extractLsb' 60 4 = 0x3#4 ∧
      (0x3000000000000001 : CmdWord).extractLsb' 0 32 ≠ 0#32) ∧
    (withCommand 0x2800000000000000 p1).cmdQueue = [0x2800000000000000] ∧
    (withCommand 0x2800000000000000 p1).rspQueue.length < Config.rspDepth := by decide

theorem witness_AssemblerFollowsEncoding : (AsmLine.dword 0x10000000000000000).wf = false := by decide

/-- The indices where the clauses of R121 and R124 meet: 1 and 2, 0xA and 0xB, 0xB and 0xC. -/
theorem witness_register_clauses :
    (0x1 : RegIndex).toNat ≤ 1 ∧ ¬ (0x2 : RegIndex).toNat ≤ 1 ∧ (0xA : RegIndex).toNat < 0xB ∧
    0xB ≤ (0xB : RegIndex).toNat ∧ (0xB : RegIndex).toNat < 0xC ∧ 0xC ≤ (0xC : RegIndex).toNat := by decide

theorem witness_inv : State.reset.Inv where
  widthReserved := by decide
  heightReserved := by decide
  faultReserved := by decide
  responsesLegal := by simp [State.reset, Block.reset]
  errorsRecorded := by simp [State.reset, Block.reset]
  memoryWf := reset_memory_wf
  commandsFit := Nat.zero_le _
  responsesFit := Nat.zero_le _

/-- The clauses of WidthAndHeightHoldSixteenBits: each index, and a written value whose low half is 0. -/
theorem witness_WidthAndHeightHoldSixteenBits :
    ((0x0 : RegIndex) = 0x0 ∨ (0x0 : RegIndex) = 0x1) ∧ ((0x1 : RegIndex) = 0x0 ∨ (0x1 : RegIndex) = 0x1) ∧
    (0xFFFF0000 : Word).extractLsb' 0 16 = 0 := by decide

theorem witness_ConfigCommandsIgnoreMemory : ∀ x y, Instr.cfgw 0xA 7 ≠ .convert x y := by
  intro x y h
  cases h

/-- For each outcome of R205 a word, and the status the step answers. -/
theorem witness_ConfigCommandReportsFirstError :
    answer (step (withCommand 0x2000001B00000000 p1)) = some ([0x1000000000000000], 0x2) ∧
    answer (step (withCommand 0x2000000B00000000 p1)) = some ([0x2000000000000000], 0x4) ∧
    answer (step (withCommand 0x2000000A00000004 p1)) = some ([0x0000000000000000], 0) ∧
    answer (step (withCommand 0x3000000B00000001 p1)) = some ([0x1000000000000000], 0x2) ∧
    answer (step (withCommand 0x3000000C00000000 p1)) = some ([0x2000000000000000], 0x4) ∧
    answer (step (withCommand 0x3000000B00000000 p1)) = some ([0x0000000000000000], 0) := by decide

/-- Each invariant of R142 broken on its own, and a configuration that breaks none. -/
theorem witness_ConvertRefusesBadConfig :
    (({ p1Cfg with width := 0xFFFF0000 } : RegFile).width.extractLsb' 0 16).toNat = 0 ∧
    (({ p1Cfg with height := 0 } : RegFile).height.extractLsb' 0 16).toNat = 0 ∧
    ({ p1Cfg with yRowStride := 3 } : RegFile).yRowStride.toNat < (p1Cfg.width.extractLsb' 0 16).toNat ∧
    ¬ ((p1Cfg.width.extractLsb' 0 16).toNat = 0 ∨ (p1Cfg.height.extractLsb' 0 16).toNat = 0 ∨
      p1Cfg.yRowStride.toNat < (p1Cfg.width.extractLsb' 0 16).toNat) ∧
    (nextOf (exec (.convert 0 0) p1)).isSome = true := by decide

theorem witness_configOk : p1.cfg.configOk := by unfold RegFile.configOk; decide

/-- x = W and y = H (section 2.3). -/
theorem witness_ConvertRefusesBadCoordinates :
    p1.cfg.configOk ∧ (p1.cfg.width.extractLsb' 0 16).toNat ≤ (4 : Coord).toNat ∧
    (p1.cfg.height.extractLsb' 0 16).toNat ≤ (4 : Coord).toNat := by unfold RegFile.configOk; decide

theorem witness_inDomain : p1.cfg.inDomain 3 3 := by unfold RegFile.inDomain; decide

/-- Each bound of R146 broken on its own at the pixel (3, 3), whose luma index is 15 and chroma index 3. -/
theorem witness_ConvertRefusesOutOfBounds :
    ({ p1Cfg with ySize := 15 } : RegFile).ySize.toNat ≤ lumaIndex p1Cfg 3 3 ∧
    2 ^ 32 ≤ ({ p1Cfg with yBase := 0xFFFFFFF1 } : RegFile).yBase.toNat + lumaIndex p1Cfg 3 3 ∧
    ({ p1Cfg with uSize := 3 } : RegFile).uSize.toNat ≤ chromaIndex p1Cfg 3 3 ∧
    2 ^ 32 ≤ ({ p1Cfg with uBase := 0xFFFFFFFD } : RegFile).uBase.toNat + chromaIndex p1Cfg 3 3 ∧
    ({ p1Cfg with vSize := 3 } : RegFile).vSize.toNat ≤ chromaIndex p1Cfg 3 3 ∧
    2 ^ 32 ≤ ({ p1Cfg with vBase := 0xFFFFFFFD } : RegFile).vBase.toNat + chromaIndex p1Cfg 3 3 := by decide

theorem witness_readsPlanes : p1.cfg.readsPlanes 3 3 := by
  unfold RegFile.readsPlanes RegFile.configOk RegFile.inDomain RegFile.inBuffers
  decide

/-- The three bytes of the pixel (3, 3) of program P1. -/
theorem witness_ConvertAnswersThePixel :
    p1.memRead 0x100F = .byte 128 ∧ p1.memRead 0x2003 = .byte 90 ∧ p1.memRead 0x3003 = .byte 240 ∧
    p1.cfg.yBase.toNat + ((3 : Coord).toNat * p1.cfg.yRowStride.toNat + (3 : Coord).toNat) = 0x100F ∧
    p1.cfg.uBase.toNat + (p1.cfg.uvPixelStride.toNat * ((3 : Coord).toNat / 2) +
      p1.cfg.uvRowStride.toNat * ((3 : Coord).toNat / 2)) = 0x2003 ∧
    p1.cfg.vBase.toNat + (p1.cfg.uvPixelStride.toNat * ((3 : Coord).toNat / 2) +
      p1.cfg.uvRowStride.toNat * ((3 : Coord).toNat / 2)) = 0x3003 := by decide

/-- Each plane answering `BusError` on its own at the pixel (3, 3), the others a byte. -/
theorem witness_ConvertReportsBusError :
    answer (exec (.convert 3 3) (setReply 0x100F .busError p1)) = some ([0x6000000000000000], 0x40) ∧
    answer (exec (.convert 3 3) (setReply 0x2003 .busError p1)) = some ([0x6000000000000000], 0x40) ∧
    answer (exec (.convert 3 3) (setReply 0x3003 .busError p1)) = some ([0x6000000000000000], 0x40) ∧
    (setReply 0x3003 .busError p1).memRead 0x3003 = .busError ∧
    (setReply 0x3003 .busError p1).memRead 0x2003 ≠ .never ∧
    (setReply 0x3003 .busError p1).memRead 0x100F ≠ .never := by decide

/-- Each plane never answering on its own. -/
theorem witness_ConvertHangsOnUnansweredRead :
    (setReply 0x100F .never p1).memRead 0x100F = .never ∧ (setReply 0x2003 .never p1).memRead 0x2003 = .never ∧
    (setReply 0x3003 .never p1).memRead 0x3003 = .never ∧
    (nextOf (exec (.convert 3 3) (setReply 0x3003 .never p1))).isSome = false := by decide

theorem witness_RefusedConvertReadsNothing : ¬ p1.cfg.readsPlanes 4 0 := by
  rintro ⟨-, inside, -⟩
  revert inside
  unfold RegFile.inDomain
  decide

/-- An answered CONVERT that succeeds and one that fails. -/
theorem witness_ConvertFrame :
    answer (exec (.convert 3 3) p1) = some ([0x00000000FF3C3DFF], 0) ∧
    answer (exec (.convert 4 0) p1) = some ([0x4000000000000000], 0x10) := by decide

/-- For each status of R204 a configuration and a word that reports it. -/
theorem witness_ConvertReportsFirstError :
    answer (step (withCommand 0x1000000100000000 p1)) = some ([0x1000000000000000], 0x2) ∧
    answer (step (withCommand 0x1000000000090009 { p1 with cfg := { p1Cfg with yRowStride := 3 } })) =
      some ([0x3000000000000000], 0x8) ∧
    answer (step (withCommand 0x1000000000040000 { p1 with cfg := { p1Cfg with ySize := 0 } })) =
      some ([0x4000000000000000], 0x10) ∧
    answer (step (withCommand 0x1000000000030003 { p1 with cfg := { p1Cfg with ySize := 15 } })) =
      some ([0x5000000000000000], 0x20) ∧
    answer (step (withCommand 0x1000000000030003 (setReply 0x2003 .busError p1))) =
      some ([0x6000000000000000], 0x40) ∧
    answer (step (withCommand 0x1000000000030003 p1)) = some ([0x00000000FF3C3DFF], 0) := by decide

/-- Another state with the same registers 0x0 to 0xA and the same bytes at the three addresses. -/
theorem witness_ConvertDependsOnThreeReads :
    let s' : State := { p1 with
      cfg := { p1Cfg with faultStatus := 0x7E }, rspQueue := [7]
      mem := [(0x0, 9), (0x100F, 128), (0x2003, 90), (0x3003, 240)] }
    s'.cfg = { p1.cfg with faultStatus := s'.cfg.faultStatus } ∧ s'.memRead 0x100F = p1.memRead 0x100F ∧
    s'.memRead 0x2003 = p1.memRead 0x2003 ∧ s'.memRead 0x3003 = p1.memRead 0x3003 ∧
    (nextOf (exec (.convert 3 3) p1)).isSome = true := by decide

/-- The largest coordinates of any domain. -/
theorem witness_index_ranges :
    RegFile.inDomain { p1Cfg with width := 0xFFFF, height := 0xFFFF } 65534 65534 := by
  unfold RegFile.inDomain; decide

theorem witness_BlockSharesChroma :
    (2 : Coord).toNat = 2 * 1 ∧ (3 : Coord).toNat = 2 * 1 + 1 ∧ (65535 : Coord).toNat = 2 * 32767 + 1 := by decide

theorem witness_frameFits : planar.cfg.configOk ∧ planar.cfg.frameFits := by
  unfold RegFile.configOk RegFile.frameFits; decide

theorem witness_ReadyFrameConvertsEveryPixel :
    (∀ k, k < planar.cfg.ySize.toNat → planar.cfg.yBase.toNat + k < 2 ^ 32 →
      ∃ b, planar.memRead (planar.cfg.yBase.toNat + k) = .byte b) ∧
    (∀ k, k < planar.cfg.uSize.toNat → planar.cfg.uBase.toNat + k < 2 ^ 32 →
      ∃ b, planar.memRead (planar.cfg.uBase.toNat + k) = .byte b) ∧
    (∀ k, k < planar.cfg.vSize.toNat → planar.cfg.vBase.toNat + k < 2 ^ 32 →
      ∃ b, planar.memRead (planar.cfg.vBase.toNat + k) = .byte b) ∧
    planar.cfg.inDomain 2 0 := by
  have y3 : planar.cfg.ySize.toNat = 3 := by decide
  have u2 : planar.cfg.uSize.toNat = 2 := by decide
  have v2 : planar.cfg.vSize.toNat = 2 := by decide
  refine ⟨fun k hk _ => ?_, fun k hk _ => ?_, fun k hk _ => ?_, by unfold RegFile.inDomain; decide⟩
  · rw [y3] at hk
    rcases (by omega : k = 0 ∨ k = 1 ∨ k = 2) with rfl | rfl | rfl
    · exact ⟨1, by decide⟩
    · exact ⟨2, by decide⟩
    · exact ⟨3, by decide⟩
  · rw [u2] at hk
    rcases (by omega : k = 0 ∨ k = 1) with rfl | rfl
    · exact ⟨10, by decide⟩
    · exact ⟨20, by decide⟩
  · rw [v2] at hk
    rcases (by omega : k = 0 ∨ k = 1) with rfl | rfl
    · exact ⟨30, by decide⟩
    · exact ⟨40, by decide⟩

theorem witness_LayoutsWithSameSamplesAgree :
    interleaved.cfg.configOk ∧ interleaved.cfg.frameFits ∧
    interleaved.cfg.width.extractLsb' 0 16 = planar.cfg.width.extractLsb' 0 16 ∧
    interleaved.cfg.height.extractLsb' 0 16 = planar.cfg.height.extractLsb' 0 16 ∧
    (∀ x y : Coord, planar.cfg.inDomain x y →
      interleaved.memRead (interleaved.cfg.yBase.toNat + (y.toNat * interleaved.cfg.yRowStride.toNat + x.toNat)) =
        planar.memRead (planar.cfg.yBase.toNat + (y.toNat * planar.cfg.yRowStride.toNat + x.toNat))) ∧
    (∀ i j : Nat, 2 * i < (planar.cfg.width.extractLsb' 0 16).toNat →
      2 * j < (planar.cfg.height.extractLsb' 0 16).toNat →
      interleaved.memRead (interleaved.cfg.uBase.toNat + interleaved.cfg.uvPixelStride.toNat * i +
          interleaved.cfg.uvRowStride.toNat * j) =
        planar.memRead (planar.cfg.uBase.toNat + planar.cfg.uvPixelStride.toNat * i +
          planar.cfg.uvRowStride.toNat * j) ∧
      interleaved.memRead (interleaved.cfg.vBase.toNat + interleaved.cfg.uvPixelStride.toNat * i +
          interleaved.cfg.uvRowStride.toNat * j) =
        planar.memRead (planar.cfg.vBase.toNat + planar.cfg.uvPixelStride.toNat * i +
          planar.cfg.uvRowStride.toNat * j)) := by
  have w3 : (planar.cfg.width.extractLsb' 0 16).toNat = 3 := by decide
  have h1 : (planar.cfg.height.extractLsb' 0 16).toNat = 1 := by decide
  refine ⟨by unfold RegFile.configOk; decide, by unfold RegFile.frameFits; decide, rfl, rfl, ?_, ?_⟩
  · rintro x y ⟨hx, hy⟩
    rw [w3] at hx
    rw [h1] at hy
    rw [(by omega : y.toNat = 0)]
    rcases (by omega : x.toNat = 0 ∨ x.toNat = 1 ∨ x.toNat = 2) with h | h | h <;> rw [h] <;> decide
  · intro i j hi hj
    rw [w3] at hi
    rw [h1] at hj
    obtain rfl : j = 0 := by omega
    rcases (by omega : i = 0 ∨ i = 1) with rfl | rfl <;> decide

/-- Two pixels of the frame, one of them the last (R152). -/
theorem witness_LumaBytesAreDistinct :
    p1.cfg.configOk ∧ p1.cfg.inDomain 0 0 ∧ p1.cfg.inDomain 3 3 := by
  unfold RegFile.configOk RegFile.inDomain; decide

theorem witness_ZeroStrides :
    State.reset.cfg.uvPixelStride = 0 ∧ State.reset.cfg.uvRowStride = 0 ∧ State.reset.cfg.yRowStride = 0 ∧
    planar.cfg.uvRowStride = 0 ∧ planar.cfg.uvPixelStride ≠ 0 := by decide

theorem witness_PixelProperties : (0 : Byte) ≤ 255 := by decide

theorem witness_StepRunsDecodedInstruction :
    (withCommand 0x1000000000030003 p1).cmdQueue = [0x1000000000030003] ∧
    (withCommand 0x1000000000030003 p1).rspQueue.length < Config.rspDepth ∧
    decode 0x1000000000030003 = .ok (.convert 3 3) := by decide

/-- A full response queue; a full command queue. -/
theorem witness_BackPressureDropsNothing :
    Config.rspDepth ≤ ({ p1 with rspQueue := List.replicate Config.rspDepth 0 } : State).rspQueue.length ∧
    Config.reqDepth ≤ ({ p1 with cmdQueue := List.replicate Config.reqDepth 0 } : State).cmdQueue.length := by
  simp

/-- Each move other than reset, answering a next state: a command accepted, a command executed and answered, a response
taken, and moves that leave both queues. -/
theorem witness_events :
    (nextOf (Event.apply (.offer 7) p1)).map (·.cmdQueue) = some [7] ∧
    (nextOf (Event.apply .execute (withCommand 0x3000000000000000 p1))).map (fun t => (t.cmdQueue, t.rspQueue)) =
      some ([], [0x4]) ∧
    (nextOf (Event.apply .take { p1 with rspQueue := [1, 2] })).map (·.rspQueue) = some [2] ∧
    nextOf (Event.apply .execute p1) = some p1 ∧ nextOf (Event.apply .take p1) = some p1 ∧
    (nextOf (Event.apply (.memory 0x1000 (.byte 7)) p1)).map (·.toBlock) = some p1.toBlock := by decide

theorem witness_OneResponsePerCommand :
    (withCommand 0 p1).cmdQueue ≠ [] ∧ (withCommand 0 p1).rspQueue.length < Config.rspDepth ∧
    answer (step (withCommand 0 p1)) = some ([0x1000000000000000], 0x2) := by decide

/-- An error answer and an `OK` answer, with their status fields. -/
theorem witness_status_fields :
    (nextOf (exec (.cfgr 0xF) p1)).map (·.rspQueue) = some (p1.rspQueue ++ [0x2000000000000000]) ∧
    (0x2000000000000000 : RspWord).extractLsb' 60 4 = Err.reg.code ∧
    (nextOf (exec (.cfgr 0x0) p1)).map (·.rspQueue) = some (p1.rspQueue ++ [0x4]) ∧
    (0x4 : RspWord).extractLsb' 60 4 = 0#4 := by decide

/-- The invariant with a command waiting, which a step then executes. -/
theorem witness_StepKeepsInv :
    (withCommand 0x3000000000000000 State.reset).Inv ∧
    (nextOf (step (withCommand 0x3000000000000000 State.reset))).isSome = true := by
  refine ⟨⟨by decide, by decide, by decide, by simp [withCommand, State.reset, Block.reset], by simp [withCommand, State.reset, Block.reset],
    reset_memory_wf, ?_, Nat.zero_le _⟩, by decide⟩
  exact Nat.succ_le_succ (Nat.zero_le _)

theorem witness_ChannelsKeepOrder :
    p1.cmdQueue.length < Config.reqDepth ∧ p1.rspQueue = [] ∧
    ({ p1 with rspQueue := [1, 2] } : State).rspQueue = 1 :: [2] := by decide

theorem witness_idle : p1.idle := by decide

/-- A run of two commands, which any RSP_DEPTH of at least 1 serves one by one. -/
theorem witness_run :
    (match runProgram [0x3000000000000000, 0x3000000C00000000] p1 with
      | .next (rs, t) => some (rs, t.cfg.faultStatus)
      | _ => none) = some ([0x4, 0x2000000000000000], 0x4) ∧
    [(0x3000000000000000 : CmdWord)].length ≤ Config.rspDepth := by
  refine ⟨by decide, Nat.succ_le_succ (Nat.zero_le _)⟩

theorem witness_LaterCommandsChangeNoEarlierResponse : p1.rspQueue.length < Config.rspDepth := by decide

theorem witness_MemoryAnswersLastWrite : Memory.wf p1.mem p1.unanswered := by decide

/-- A queue in which a CFGW moves the luma plane to 0x5000 before the CONVERT of the pixel (3, 3). -/
def movedPlane : State :=
  { p1 with cmdQueue := [encode (.cfgw 0x2 0x5000), encode (.convert 3 3)] }

/-- The CONVERT of `movedPlane` reads 0x500F, which is barred, and not 0x100F, which is written. -/
theorem witness_PlanesAreImmutableDuringConvert :
    movedPlane.cmdQueue = [encode (.cfgw 0x2 0x5000)] ++ encode (.convert 3 3) :: [] ∧
    RegFile.readsPlanes { p1Cfg with yBase := 0x5000 } 3 3 ∧
    ({ p1Cfg with yBase := 0x5000 } : RegFile).yBase.toNat + lumaIndex { p1Cfg with yBase := 0x5000 } 3 3 = 0x500F ∧
    nextOf (Event.apply (.memory 0x500F (.byte 7)) movedPlane) = none ∧
    nextOf (Event.apply (.memory 0x100F (.byte 7)) movedPlane) = some (setReply 0x100F (.byte 7) movedPlane) := by
  unfold RegFile.readsPlanes RegFile.configOk RegFile.inDomain RegFile.inBuffers
  decide

/-- A pass of one CONVERT, of the pixel (3, 3), with a write of an address it does not read while it is queued. -/
def onePixelPass : List Event :=
  [.offer 0x1000000000030003, .memory 0x1000 (.byte 7), .execute, .take]

theorem witness_PassReadsOneSnapshot :
    Memory.wf p1.mem p1.unanswered ∧ planesImmutable onePixelPass p1 ∧
    (match runEvents onePixelPass p1 with
      | .next (rs, t) => some (rs, t.memRead 0x1000)
      | _ => none) = some ([0x00000000FF3C3DFF], .byte 7) := by
  refine ⟨by decide, fun a r h => ?_, by decide⟩
  have ha : a = 0x1000 := by
    simp only [onePixelPass, List.mem_cons, List.not_mem_nil, or_false, Event.memory.injEq, reduceCtorEq, false_or] at h
    exact h.1
  subst ha
  decide

end Sys2Proof.Tests
end

/-! PROOFS. What a refused command leaves as a whole state, each command by the check that decides its outcome, and the
registers at reset; then the statements on the register file (10_state.md R35, R36, R47, R52). -/

namespace Sys2Proof.Machine

/-! ### The state after an error -/

/-- The whole state an error leaves, for the response word `w` and the sticky mask `m` of its code (R97, R203). -/
theorem raise_eq_of_word {e : Err} {w : RspWord} {m : Word} (hw : responseWord (.err e) 0 = w)
    (hm : e.stickyFlag = m) (s : State) :
    raise e s = { s with
      rspQueue := s.rspQueue ++ [w]
      cfg := { s.cfg with faultStatus := s.cfg.faultStatus ||| m } } := by
  subst hw hm
  rfl

theorem raise_reg_eq (s : State) :
    raise .reg s = { s with
      rspQueue := s.rspQueue ++ [0x2000000000000000]
      cfg := { s.cfg with faultStatus := s.cfg.faultStatus ||| 0x4 } } :=
  raise_eq_of_word (by decide) (by decide) s

theorem raise_config_eq (s : State) :
    raise .config s = { s with
      rspQueue := s.rspQueue ++ [0x3000000000000000]
      cfg := { s.cfg with faultStatus := s.cfg.faultStatus ||| 0x8 } } :=
  raise_eq_of_word (by decide) (by decide) s

/-! ### The commands by the check that decides them -/

theorem exec_cfgr_of_read_eq_none {s : State} {reg : RegIndex} (h : s.cfg.read reg = none) :
    exec (.cfgr reg) s = .next (raise .reg s) := by
  simp only [exec, execCfgr, h]

theorem exec_cfgr_of_read_eq_some {s : State} {reg : RegIndex} {v : Word} (h : s.cfg.read reg = some v) :
    exec (.cfgr reg) s = .next (respond .ok v s) := by
  simp only [exec, execCfgr, h]

theorem exec_cfgw_of_write_eq_none {s : State} {reg : RegIndex} {data : Word} (h : s.cfg.write reg data = none) :
    exec (.cfgw reg data) s = .next (raise .reg s) := by
  simp only [exec, execCfgw, h]

theorem exec_cfgw_of_write_eq_some {s : State} {reg : RegIndex} {data : Word} {f : RegFile}
    (h : s.cfg.write reg data = some f) :
    exec (.cfgw reg data) s = .next (respond .ok 0 { s with cfg := f }) := by
  simp only [exec, execCfgw, h]

theorem exec_convert_of_translate_eq_error {s : State} {x y : Coord} {e : Err} (h : translate s.cfg x y = .error e) :
    exec (.convert x y) s = .next (raise e s) := by
  simp only [exec, execConvert, h]

/-- The configuration check is the first: where it fails, no coordinate and no byte of memory matters (R142, R204). -/
theorem translate_of_not_configOk {f : RegFile} (h : ¬ f.configOk) (x y : Coord) :
    translate f x y = .error .config := by
  rcases translate_spec f x y with ⟨-, ht⟩ | ⟨hc, -⟩ | ⟨hc, -⟩ | ⟨⟨hc, -⟩, -⟩
  · exact ht
  all_goals exact absurd hc h

theorem exec_convert_of_not_configOk {s : State} (h : ¬ s.cfg.configOk) (x y : Coord) :
    exec (.convert x y) s = .next (raise .config s) :=
  exec_convert_of_translate_eq_error (translate_of_not_configOk h x y)

/-! ### The register file -/

/-- A CFGW takes every index below that of FAULT_STATUS (R121). -/
theorem RegFile.exists_write_eq_some (f : RegFile) {reg : RegIndex} (h : reg.toNat < 0xB) (data : Word) :
    ∃ f', f.write reg data = some f' :=
  Option.ne_none_iff_exists'.mp fun hn => by
    have := (f.write_eq_none reg data).mp hn
    omega

/-- A WIDTH or HEIGHT whose low half is 0 breaks the configuration, whatever its reserved half (R35, R36, R142). -/
theorem RegFile.not_configOk_of_read_eq_zero {f : RegFile} {reg : RegIndex} {v : Word} (hreg : reg = 0x0 ∨ reg = 0x1)
    (hread : f.read reg = some v) (hv : v.extractLsb' 0 16 = 0) : ¬ f.configOk := by
  rintro ⟨hw, hh, -⟩
  rcases hreg with rfl | rfl
  · have : f.width = v := Option.some.inj hread
    simp [this, hv] at hw
  · have : f.height = v := Option.some.inj hread
    simp [this, hv] at hh

@[simp] theorem RegFile.get_reset (r : Reg) : RegFile.reset.get r = 0 := by
  cases r <;> rfl

/-- Every defined register is 0 after reset (R52). -/
theorem RegFile.read_reset {i : RegIndex} (h : i.toNat < 0xC) : RegFile.reset.read i = some 0 := by
  have hdef : RegFile.reset.read i ≠ none := fun hn => by
    have := (RegFile.reset.read_eq_none i).mp hn
    omega
  obtain ⟨v, hv⟩ := Option.ne_none_iff_exists'.mp hdef
  obtain ⟨r, -, rfl⟩ := Option.map_eq_some_iff.mp hv
  rw [hv, RegFile.get_reset]

theorem RegFile.not_configOk_reset : ¬ RegFile.reset.configOk :=
  RegFile.not_configOk_of_read_eq_zero (.inl rfl) (RegFile.read_reset (i := 0x0) (by decide)) (by decide)

/-! ### The statements -/

/-- Settles O11: the register a CFGW wrote reads back as the 16 bits it kept, and these at 0 break the configuration. -/
theorem widthAndHeightHoldSixteenBits : Obligations.WidthAndHeightHoldSixteenBits := by
  refine ⟨fun s reg data hreg => ?_, RegFile.read_reset (by decide), RegFile.read_reset (by decide)⟩
  have hle : reg.toNat ≤ 1 := by rcases hreg with rfl | rfl <;> decide
  obtain ⟨f, hf⟩ := s.cfg.exists_write_eq_some (reg := reg) (by omega) data
  have hread : f.read reg = some ((data.extractLsb' 0 16).setWidth 32) := by
    rw [RegFile.read_write hf reg, if_pos rfl, if_pos hle]
  refine ⟨respond .ok 0 { s with cfg := f }, exec_cfgw_of_write_eq_some hf, rfl, hread, ?_, fun hzero x y => ?_⟩
  · rw [exec_cfgr_of_read_eq_some hread, respond, responseWord_ok, BitVec.setWidth_setWidth (by decide)]
  · have hbad : ¬ f.configOk := RegFile.not_configOk_of_read_eq_zero hreg hread (by rw [hzero]; decide)
    rw [exec_convert_of_not_configOk hbad, raise_config_eq]

/-- Settles O12: no index from 0xC on can be read or written, so both commands take `ERR_REG`. -/
theorem reservedIndicesAreRefused : Obligations.ReservedIndicesAreRefused := by
  intro s reg hreg
  have hread : s.cfg.read reg = none := (s.cfg.read_eq_none reg).mpr hreg
  refine ⟨hread, ?_, fun data => ?_⟩
  · rw [exec_cfgr_of_read_eq_none hread, raise_reg_eq]
  · have hwrite : s.cfg.write reg data = none := (s.cfg.write_eq_none reg data).mpr (by omega)
    rw [exec_cfgw_of_write_eq_none hwrite, raise_reg_eq]

/-- Settles O48: every register is 0, so a CONVERT fails its first check before it reads the memory. -/
theorem resetValues : Obligations.ResetValues := by
  refine ⟨fun i hi => RegFile.read_reset hi, rfl, rfl, fun m a x y => ?_⟩
  rw [exec_convert_of_not_configOk RegFile.not_configOk_reset, raise_config_eq]
  simp [State.reset, Block.reset, RegFile.reset]

end Sys2Proof.Machine

/-! PROOFS. The opcode map's rows as the decoder's tests on the fields (30_encoding.md R99), when a word decodes to no
command and what a step makes of it (R100); then the statements on the words of the encoding. -/

namespace Sys2Proof

/-! ### A row of the opcode map as a test on fields -/

/-- CONVERT's row: `OP` = 0x1 and the zero field of format C (R92, R99). -/
theorem and_convertMask_eq_iff (c : CmdWord) :
    c &&& 0xFFFFFFFF00000000 = 0x1000000000000000 ↔ opField c = 0x1 ∧ zeroFieldC c = 0 := by
  simp only [← BitVec.toNat_inj, and_convertMask_toNat, opField_toNat, zeroFieldC_toNat, BitVec.reduceToNat]
  omega

/-- CFGW's row: `OP` = 0x2 and the zero field of format W (R92, R99). -/
theorem and_cfgwMask_eq_iff (c : CmdWord) :
    c &&& 0xFFFFFFF000000000 = 0x2000000000000000 ↔ opField c = 0x2 ∧ zeroFieldWR c = 0 := by
  simp only [← BitVec.toNat_inj, and_cfgwMask_toNat, opField_toNat, zeroFieldWR_toNat, BitVec.reduceToNat]
  omega

/-- CFGR's row: `OP` = 0x3 and the two zero fields of format R (R92, R99). -/
theorem and_cfgrMask_eq_iff (c : CmdWord) :
    c &&& 0xFFFFFFF0FFFFFFFF = 0x3000000000000000 ↔ opField c = 0x3 ∧ zeroFieldWR c = 0 ∧ dataField c = 0 := by
  simp only [← BitVec.toNat_inj, and_cfgrMask_toNat, opField_toNat, zeroFieldWR_toNat, dataField_toNat,
    BitVec.reduceToNat]
  omega

/-! ### The decoder by its tests -/

theorem decode_eq_convert {c : CmdWord} (hop : opField c = 0x1) (hzero : zeroFieldC c = 0) :
    decode c = .ok (.convert (xField c) (yField c)) := by
  simp [decode, hop, hzero]

theorem decode_eq_cfgw {c : CmdWord} (hop : opField c = 0x2) (hzero : zeroFieldWR c = 0) :
    decode c = .ok (.cfgw (regField c) (dataField c)) := by
  simp [decode, hop, hzero]

theorem decode_eq_cfgr {c : CmdWord} (hop : opField c = 0x3) (hzero : zeroFieldWR c = 0) (hlow : dataField c = 0) :
    decode c = .ok (.cfgr (regField c)) := by
  simp [decode, hop, hzero, hlow]

/-- The words of R100, by the format whose zero field is broken or by an `OP` no format has. -/
def illegalWord (c : CmdWord) : Prop :=
  (opField c = 0x0 ∨ 4 ≤ (opField c).toNat) ∨
  (opField c = 0x1 ∧ zeroFieldC c ≠ 0) ∨
  (opField c = 0x2 ∧ zeroFieldWR c ≠ 0) ∨
  (opField c = 0x3 ∧ (zeroFieldWR c ≠ 0 ∨ dataField c ≠ 0))

/-- The values of `OP` that no format has (R92, R100). -/
theorem op_eq_zero_or_four_le : ∀ op : BitVec 4, op ≠ 0x1 → op ≠ 0x2 → op ≠ 0x3 → op = 0x0 ∨ 4 ≤ op.toNat := by
  decide

/-- Every word is one of the three commands or illegal. -/
theorem format_or_illegalWord (c : CmdWord) :
    (opField c = 0x1 ∧ zeroFieldC c = 0) ∨ (opField c = 0x2 ∧ zeroFieldWR c = 0) ∨
    (opField c = 0x3 ∧ zeroFieldWR c = 0 ∧ dataField c = 0) ∨ illegalWord c := by
  have := op_eq_zero_or_four_le (opField c)
  unfold illegalWord
  tauto

theorem decode_error_of_illegalWord {c : CmdWord} (h : illegalWord c) : ∃ e, decode c = .error e := by
  rcases h with (hop | hop) | ⟨hop, hzero⟩ | ⟨hop, hzero⟩ | ⟨hop, hzero⟩
  · exact ⟨.opcode, by simp [decode, hop]⟩
  · have hne (op : BitVec 4) (hlt : op.toNat < 4) : opField c ≠ op := by
      rintro rfl
      omega
    exact ⟨.opcode, by simp [decode, hne]⟩
  · exact ⟨.convertZeroField, by simpa [decode, hop] using hzero⟩
  · exact ⟨.cfgwZeroField, by simpa [decode, hop] using hzero⟩
  · exact ⟨.cfgrZeroField, by simpa [decode, hop] using not_and_or.mpr hzero⟩

/-- The illegal words are the words without a command. -/
theorem illegalWord_iff (c : CmdWord) : illegalWord c ↔ ∀ i : Instr, decode c ≠ .ok i := by
  constructor
  · intro h i hok
    obtain ⟨e, herr⟩ := decode_error_of_illegalWord h
    cases hok.symm.trans herr
  · intro hno
    rcases format_or_illegalWord c with ⟨hop, hzero⟩ | ⟨hop, hzero⟩ | ⟨hop, hzero, hlow⟩ | h
    · exact absurd (decode_eq_convert hop hzero) (hno _)
    · exact absurd (decode_eq_cfgw hop hzero) (hno _)
    · exact absurd (decode_eq_cfgr hop hzero hlow) (hno _)
    · exact h

/-- Settles O4: each row's match and mask are the decoder's test for its command, and no word fails all three tests
without being illegal. -/
theorem opcodeMapDecides : Obligations.OpcodeMapDecides := by
  intro c
  rw [ne_eq, ne_eq, ne_eq, and_convertMask_eq_iff, and_cfgwMask_eq_iff, and_cfgrMask_eq_iff]
  refine ⟨fun ⟨hop, hzero⟩ => decode_eq_convert hop hzero, fun ⟨hop, hzero⟩ => decode_eq_cfgw hop hzero,
    fun ⟨hop, hzero, hlow⟩ => decode_eq_cfgr hop hzero hlow, fun ⟨hconvert, hcfgw, hcfgr⟩ => ?_⟩
  rcases format_or_illegalWord c with h | h | h | h
  · exact absurd h hconvert
  · exact absurd h hcfgw
  · exact absurd h hcfgr
  · exact decode_error_of_illegalWord h

end Sys2Proof

namespace Sys2Proof.Machine

theorem raise_opcode_eq (s : State) :
    raise .opcode s = { s with
      rspQueue := s.rspQueue ++ [0x1000000000000000]
      cfg := { s.cfg with faultStatus := s.cfg.faultStatus ||| 0x2 } } :=
  raise_eq_of_word (by decide) (by decide) s

/-- A step whose word has no command takes the word and raises `ERR_OPCODE` (R100). -/
theorem step_of_decode_eq_error {s : State} {c : CmdWord} {rest : List CmdWord} {e : DecodeError}
    (hq : s.cmdQueue = c :: rest) (hr : s.rspQueue.length < Config.rspDepth) (he : decode c = .error e) :
    step s = .next (raise .opcode { s with cmdQueue := rest }) := by
  rw [step_of_next hq hr, he]

/-- Settles O5: the words of R100 are those without a command, and a step raises `ERR_OPCODE` on each. -/
theorem illegalWordTakesErrOpcode : Obligations.IllegalWordTakesErrOpcode := by
  intro c
  refine ⟨illegalWord_iff c, fun h s rest hq hr => ?_⟩
  obtain ⟨e, he⟩ := decode_error_of_illegalWord h
  rw [step_of_decode_eq_error hq hr he, raise_opcode_eq]

end Sys2Proof.Machine

/-! PROOFS. What every answered command leaves as it was, and that a configuration command, which reads no address, is
always answered and does the same beside any memory; then the statement on R120. -/

namespace Sys2Proof.Machine

/-- An answered command appends one response; it stores nothing and leaves the commands behind it (R50, R64). -/
theorem exec_next_frame {i : Instr} {s t : State} (h : exec i s = .next t) :
    t.toSourceMemory = s.toSourceMemory ∧ t.cmdQueue = s.cmdQueue ∧ ∃ r, t.rspQueue = s.rspQueue ++ [r] := by
  rcases exec_next_cases h with ⟨e, rfl⟩ | ⟨f, d, rfl, -⟩
  · exact ⟨rfl, rfl, _, raise_rspQueue e s⟩
  · exact ⟨rfl, rfl, _, respond_rspQueue .ok d _⟩

/-- Only a CONVERT can be left unanswered (R238). -/
theorem exists_exec_eq_next_of_ne_convert {i : Instr} (hi : ∀ x y, i ≠ .convert x y) (s : State) :
    ∃ t, exec i s = .next t := by
  rcases exec_next_or_hang i s with ht | ⟨-, x, y, hconv, -⟩
  · exact ht
  · exact absurd hconv (hi x y)

/-- No memory has to agree with the state's own for a command that reads no address (R69, R120). -/
theorem exec_withMemory_of_ne_convert {i : Instr} (hi : ∀ x y, i ≠ .convert x y) (s : State) (m : SourceMemory) :
    exec i { s with toSourceMemory := m } = withMemory m (exec i s) :=
  exec_withMemory i s m fun x y hconv => absurd hconv (hi x y)

/-- Settles O14: a command that is no CONVERT reads no address, so it is answered, and alike beside every memory. -/
theorem configCommandsIgnoreMemory : Obligations.ConfigCommandsIgnoreMemory := by
  intro s m a i hi
  obtain ⟨t, ht⟩ := exists_exec_eq_next_of_ne_convert hi s
  obtain ⟨hmem, hcmd, r, hrsp⟩ := exec_next_frame ht
  refine ⟨t, r, ht, congrArg SourceMemory.mem hmem, congrArg SourceMemory.unanswered hmem, hcmd, hrsp, ?_⟩
  rw [exec_withMemory_of_ne_convert hi s ⟨m, a⟩, ht, withMemory]

end Sys2Proof.Machine

/-! PROOFS. A CONVERT by the check or the reads that decide it, and the arithmetic of its two plane indices; then the
statements on its checks, its frame and its translator (41_convert.md R142 to R154). -/

namespace Sys2Proof.Machine

/-! ### The checks -/

theorem raise_bounds_eq (s : State) :
    raise .bounds s = { s with
      rspQueue := s.rspQueue ++ [0x5000000000000000]
      cfg := { s.cfg with faultStatus := s.cfg.faultStatus ||| 0x20 } } :=
  raise_eq_of_word (by decide) (by decide) s

/-- The three ways a configuration fails the check of R142. -/
theorem RegFile.not_configOk_iff (f : RegFile) :
    ¬ f.configOk ↔ (f.width.extractLsb' 0 16).toNat = 0 ∨ (f.height.extractLsb' 0 16).toNat = 0 ∨
      f.yRowStride.toNat < (f.width.extractLsb' 0 16).toNat := by
  unfold RegFile.configOk
  omega

/-- The six ways a pixel fails the check of R146, two for each plane. -/
theorem RegFile.not_inBuffers_iff (f : RegFile) (x y : Coord) :
    ¬ f.inBuffers x y ↔
      (f.ySize.toNat ≤ lumaIndex f x y ∨ 2 ^ 32 ≤ f.yBase.toNat + lumaIndex f x y) ∨
      (f.uSize.toNat ≤ chromaIndex f x y ∨ 2 ^ 32 ≤ f.uBase.toNat + chromaIndex f x y) ∨
      (f.vSize.toNat ≤ chromaIndex f x y ∨ 2 ^ 32 ≤ f.vBase.toNat + chromaIndex f x y) := by
  unfold RegFile.inBuffers
  omega

/-- Only a bad configuration fails the first check (R142). -/
theorem translate_ne_config_of_configOk {f : RegFile} (h : f.configOk) (x y : Coord) :
    translate f x y ≠ .error .config := by
  rcases translate_spec f x y with ⟨hc, -⟩ | ⟨-, -, ht⟩ | ⟨-, -, -, ht⟩ | ⟨-, ht⟩
  · exact absurd h hc
  all_goals simp [ht]

/-- The bounds check is the last: with the other two passed, its failure is the error (R146, R204). -/
theorem translate_of_not_inBuffers {f : RegFile} {x y : Coord} (hc : f.configOk) (hd : f.inDomain x y)
    (hb : ¬ f.inBuffers x y) : translate f x y = .error .bounds := by
  rcases translate_spec f x y with ⟨h, -⟩ | ⟨-, h, -⟩ | ⟨-, -, -, ht⟩ | ⟨⟨-, -, h⟩, -⟩
  · exact absurd hc h
  · exact absurd hd h
  · exact ht
  · exact absurd h hb

/-- No check of a CONVERT looks at FAULT_STATUS. -/
theorem translate_withFaultStatus (f : RegFile) (v : Word) (x y : Coord) :
    translate { f with faultStatus := v } x y = translate f x y := rfl

/-! ### CONVERT by what decides it -/

theorem exec_convert_of_busError {s : State} {x y : Coord} {a : PlaneAddrs} (ht : translate s.cfg x y = .ok a)
    (hp : readPlanes s.toSourceMemory a = .busError) : exec (.convert x y) s = .next (raise .bus s) := by
  simp only [exec, execConvert, ht, hp]

theorem exec_convert_of_samples {s : State} {x y : Coord} {a : PlaneAddrs} {sy su sv : Byte}
    (ht : translate s.cfg x y = .ok a) (hp : readPlanes s.toSourceMemory a = .samples sy su sv) :
    exec (.convert x y) s = .next (respond .ok (convertPixel sy su sv) s) := by
  simp only [exec, execConvert, ht, hp]

/-- An answered CONVERT fails a check, or reads its three planes and meets a `BusError` or converts what they hold. -/
theorem exec_convert_next_cases {x y : Coord} {s t : State} (h : exec (.convert x y) s = .next t) :
    (∃ e, translate s.cfg x y = .error e ∧ t = raise e s) ∨
    (translate s.cfg x y = .ok (planeAddrs s.cfg x y) ∧
      ((readPlanes s.toSourceMemory (planeAddrs s.cfg x y) = .busError ∧ t = raise .bus s) ∨
        ∃ sy su sv, readPlanes s.toSourceMemory (planeAddrs s.cfg x y) = .samples sy su sv ∧
          t = respond .ok (convertPixel sy su sv) s)) := by
  by_cases hr : s.cfg.readsPlanes x y
  · have ht := translate_of_readsPlanes hr
    simp only [exec, execConvert, ht] at h
    refine .inr ⟨ht, ?_⟩
    cases hp : readPlanes s.toSourceMemory (planeAddrs s.cfg x y) with
    | never => rw [hp] at h; cases h
    | busError => rw [hp] at h; cases h; exact .inl ⟨rfl, rfl⟩
    | samples sy su sv => rw [hp] at h; cases h; exact .inr ⟨sy, su, sv, rfl, rfl⟩
  · obtain ⟨e, ht⟩ := translate_of_refused hr
    rw [exec_convert_of_translate_eq_error ht] at h
    cases h
    exact .inl ⟨e, ht, rfl⟩

/-- An answered CONVERT leaves the state of an error or that of an `OK`. -/
theorem exec_convert_next {x y : Coord} {s t : State} (h : exec (.convert x y) s = .next t) :
    (∃ e, t = raise e s) ∨ ∃ d, t = respond .ok d s := by
  rcases exec_convert_next_cases h with ⟨e, -, ht⟩ | ⟨-, ⟨-, ht⟩ | ⟨sy, su, sv, -, ht⟩⟩
  · exact .inl ⟨e, ht⟩
  · exact .inl ⟨.bus, ht⟩
  · exact .inr ⟨_, ht⟩

/-- The appended word is the response, so its status is read off it. -/
theorem rspStatus_of_append_eq {q : List RspWord} {st : Status} {d : Word} {r : RspWord}
    (h : q ++ [responseWord st d] = q ++ [r]) : rspStatus r = st.code := by
  obtain rfl : responseWord st d = r := by simpa using h
  exact rspStatus_responseWord st d

/-- Under a good configuration no CONVERT answers status 0x3 (R142). -/
theorem rspStatus_convert_ne_config {x y : Coord} {s t : State} {r : RspWord} (hc : s.cfg.configOk)
    (h : exec (.convert x y) s = .next t) (hr : t.rspQueue = s.rspQueue ++ [r]) : rspStatus r ≠ Err.code .config := by
  rcases exec_convert_next_cases h with ⟨e, he, rfl⟩ | ⟨-, ⟨-, rfl⟩ | ⟨sy, su, sv, -, rfl⟩⟩
  · rw [rspStatus_of_append_eq hr]
    intro hcode
    obtain rfl := Err.code_injective hcode
    exact translate_ne_config_of_configOk hc x y he
  · rw [rspStatus_of_append_eq hr]
    decide
  · rw [rspStatus_of_append_eq hr]
    decide

/-! ### The two indices -/

theorem lumaIndex_lt (f : RegFile) (x y : Coord) : lumaIndex f x y < 2 ^ 48 + 2 ^ 16 := by
  have hrow : y.toNat * f.yRowStride.toNat < 2 ^ 16 * 2 ^ 32 := Nat.mul_lt_mul'' y.isLt f.yRowStride.isLt
  have hx := x.isLt
  unfold lumaIndex
  omega

theorem chromaIndex_lt (f : RegFile) (x y : Coord) : chromaIndex f x y < 2 ^ 48 := by
  have half_lt (c : Coord) : c.toNat / 2 < 2 ^ 15 := by omega
  have hcol : f.uvPixelStride.toNat * (x.toNat / 2) < 2 ^ 32 * 2 ^ 15 :=
    Nat.mul_lt_mul'' f.uvPixelStride.isLt (half_lt x)
  have hrow : f.uvRowStride.toNat * (y.toNat / 2) < 2 ^ 32 * 2 ^ 15 :=
    Nat.mul_lt_mul'' f.uvRowStride.isLt (half_lt y)
  unfold chromaIndex
  omega

/-- A column of the frame is a column of the row's stride (R142, R152). -/
theorem RegFile.x_lt_yRowStride {f : RegFile} {x y : Coord} (hc : f.configOk) (hd : f.inDomain x y) :
    x.toNat < f.yRowStride.toNat :=
  lt_of_lt_of_le hd.1 hc.2.2

theorem lumaIndex_mod_yRowStride {f : RegFile} {x y : Coord} (hx : x.toNat < f.yRowStride.toNat) :
    lumaIndex f x y % f.yRowStride.toNat = x.toNat := by
  rw [lumaIndex, Nat.mul_add_mod_self_right, Nat.mod_eq_of_lt hx]

theorem lumaIndex_div_yRowStride {f : RegFile} {x y : Coord} (hx : x.toNat < f.yRowStride.toNat) :
    lumaIndex f x y / f.yRowStride.toNat = y.toNat := by
  rw [lumaIndex, Nat.add_comm, Nat.add_mul_div_right _ _ (Nat.zero_lt_of_lt hx), Nat.div_eq_of_lt hx, Nat.zero_add]

/-! ### The statements -/

/-- Settles O16: a broken invariant is a failed first check, a good configuration never fails it, and the write of a
CFGW always goes through. -/
theorem convertRefusesBadConfig : Obligations.ConvertRefusesBadConfig := by
  intro s x y bad
  have hbad : ¬ s.cfg.configOk ↔ bad := s.cfg.not_configOk_iff
  refine ⟨fun hb => ?_, fun hb t r ht hr => ?_, fun reg data hreg => ?_⟩
  · rw [exec_convert_of_not_configOk (hbad.mpr hb), raise_config_eq]
  · exact rspStatus_convert_ne_config (not_not.mp (mt hbad.mp hb)) ht hr
  · obtain ⟨f, hf⟩ := s.cfg.exists_write_eq_some hreg data
    exact ⟨_, exec_cfgw_of_write_eq_some hf, by rw [respond_rspQueue, responseWord_ok]; rfl⟩

/-- Settles O18: with the other two checks passed the bounds check alone decides between the error and the addresses. -/
theorem convertRefusesOutOfBounds : Obligations.ConvertRefusesOutOfBounds := by
  intro s x y hc hd out
  have hout : ¬ s.cfg.inBuffers x y ↔ out := s.cfg.not_inBuffers_iff x y
  refine ⟨fun ho => ?_, fun ho => ?_⟩
  · rw [exec_convert_of_translate_eq_error (translate_of_not_inBuffers hc hd (hout.mpr ho)), raise_bounds_eq]
  · have hb : s.cfg.inBuffers x y := not_not.mp (mt hout.mp ho)
    have ht := translate_of_readsPlanes ⟨hc, hd, hb⟩
    obtain ⟨⟨-, hy⟩, ⟨-, hu⟩, ⟨-, hv⟩⟩ := hb
    exact ⟨_, ht, rfl, rfl, rfl, hy, hu, hv⟩

/-- Settles O23: an error sets its sticky bit, whose place is its status, and an `OK` sets nothing. -/
theorem convertFrame : Obligations.ConvertFrame := by
  intro s t x y h
  rcases exec_convert_next h with ⟨e, rfl⟩ | ⟨d, rfl⟩
  · refine ⟨s.cfg.read_setSticky e, fun _ => rfl, rfl, rfl, rfl, _, raise_rspQueue e s, fun hok => ?_, fun _ => ?_⟩
    · rw [rspStatus_responseWord] at hok
      exact absurd hok e.code_ne_zero
    · rw [rspStatus_responseWord]
      rfl
  · refine ⟨fun _ _ => rfl, fun _ => rfl, rfl, rfl, rfl, _, respond_rspQueue .ok d s, fun _ => rfl, fun herr => ?_⟩
    rw [rspStatus_responseWord] at herr
    exact absurd rfl herr

/-- Settles O25: the checks see the registers 0x0 to 0xA, the rest sees the replies of the three addresses, so the
outcome at one state decides that at the other. -/
theorem convertDependsOnThreeReads : Obligations.ConvertDependsOnThreeReads := by
  intro s s' t x y hcfg hy hu hv h
  have htr : translate s'.cfg x y = translate s.cfg x y := by rw [hcfg, translate_withFaultStatus]
  have hrd : readPlanes s'.toSourceMemory (planeAddrs s.cfg x y) = readPlanes s.toSourceMemory (planeAddrs s.cfg x y) :=
    readPlanes_congr hy hu hv
  rcases exec_convert_next_cases h with ⟨e, ht, rfl⟩ | ⟨ht, ⟨hp, rfl⟩ | ⟨sy, su, sv, hp, rfl⟩⟩
  · exact ⟨_, _, exec_convert_of_translate_eq_error (htr.trans ht), raise_rspQueue e s, raise_rspQueue e s'⟩
  · exact ⟨_, _, exec_convert_of_busError (htr.trans ht) (hrd.trans hp), raise_rspQueue .bus s,
      raise_rspQueue .bus s'⟩
  · exact ⟨_, _, exec_convert_of_samples (htr.trans ht) (hrd.trans hp), respond_rspQueue .ok _ s,
      respond_rspQueue .ok _ s'⟩

/-- Settles O26: the widths of the coordinates and of the stride bound the index on their own. -/
theorem lumaIndexRange : Obligations.LumaIndexRange :=
  fun f x y => ⟨rfl, fun _ => lumaIndex_lt f x y⟩

/-- Settles O27: half a coordinate has 15 bits, so each of the two products is below 2^47. -/
theorem chromaIndexRange : Obligations.ChromaIndexRange :=
  fun f x y => ⟨rfl, rfl, fun _ => chromaIndex_lt f x y, rfl, rfl⟩

/-- Settles O32: a column of the frame is below the stride, so dividing the index by the stride gives both coordinates
back. -/
theorem lumaBytesAreDistinct : Obligations.LumaBytesAreDistinct := by
  intro f x y x' y' hc hd hd'
  have hx := RegFile.x_lt_yRowStride hc hd
  have hx' := RegFile.x_lt_yRowStride hc hd'
  refine ⟨lumaIndex_mod_yRowStride hx, fun heq => ⟨BitVec.eq_of_toNat_eq ?_, BitVec.eq_of_toNat_eq ?_⟩⟩
  · rw [← lumaIndex_mod_yRowStride (y := y) hx, heq, lumaIndex_mod_yRowStride hx']
  · rw [← lumaIndex_div_yRowStride hx, heq, lumaIndex_div_yRowStride hx']

/-- Settles O33: a zero stride takes its product out of the chroma index; a zero luma stride is below every width but 0,
so it breaks the configuration. -/
theorem zeroStrides : Obligations.ZeroStrides := by
  intro s x y
  refine ⟨fun hp => by simp [chromaIndex, hp], fun hr => by simp [chromaIndex, hr],
    fun hp hr => by simp [chromaIndex, hp, hr], ?_, fun hs => ?_⟩
  · have htwo : chromaIndex s.cfg 2 0 = s.cfg.uvPixelStride.toNat := by simp [chromaIndex]
    have hzero : chromaIndex s.cfg 0 0 = 0 := by simp [chromaIndex]
    rw [htwo, hzero]
    exact BitVec.toNat_inj (y := 0)
  · have hbad : ¬ s.cfg.configOk := by
      rintro ⟨hw, -, hle⟩
      have : s.cfg.yRowStride.toNat = 0 := by rw [hs]; rfl
      omega
    rw [exec_convert_of_not_configOk hbad, raise_config_eq]

end Sys2Proof.Machine

/-! PROOFS. The chroma terms' bounds and order, the clamp by its threshold at each end, and the byte lanes of a packed
pixel; then the statements on the CSC engine (42_csc.md R172 to R183). -/

namespace Sys2Proof.Machine

/-! ### The chroma terms -/

/-- A greater sample has no smaller term, whatever the coefficient and the shift (R171). -/
theorem sample_mul_shiftRight_mono {c c' : Byte} (h : c ≤ c') (k n : Nat) :
    (c.toNat * k) >>> n ≤ (c'.toNat * k) >>> n := by
  simp only [Nat.shiftRight_eq_div_pow]
  exact Nat.div_le_div_right (Nat.mul_le_mul_right k (BitVec.le_def.mp h))

theorem sample_le_255 (c : Byte) : c ≤ 255 :=
  BitVec.le_def.mpr (Nat.le_of_lt_succ c.isLt)

/-- Every product is largest at the sample 255. -/
theorem sample_mul_le (c : Byte) (k : Nat) : c.toNat * k ≤ 255 * k :=
  Nat.mul_le_mul_right k (BitVec.le_def.mp (sample_le_255 c))

theorem tRV_eq_div (v : Byte) : tRV v = v.toNat * 1436 / 1024 := Nat.shiftRight_eq_div_pow _ 10
theorem tGU_eq_div (u : Byte) : tGU u = u.toNat * 46549 / 131072 := Nat.shiftRight_eq_div_pow _ 17
theorem tGV_eq_div (v : Byte) : tGV v = v.toNat * 93604 / 131072 := Nat.shiftRight_eq_div_pow _ 17
theorem tBU_eq_div (u : Byte) : tBU u = u.toNat * 1814 / 1024 := Nat.shiftRight_eq_div_pow _ 10

theorem tRV_mono {v v' : Byte} (h : v ≤ v') : tRV v ≤ tRV v' := sample_mul_shiftRight_mono h 1436 10
theorem tGU_mono {u u' : Byte} (h : u ≤ u') : tGU u ≤ tGU u' := sample_mul_shiftRight_mono h 46549 17
theorem tGV_mono {v v' : Byte} (h : v ≤ v') : tGV v ≤ tGV v' := sample_mul_shiftRight_mono h 93604 17
theorem tBU_mono {u u' : Byte} (h : u ≤ u') : tBU u ≤ tBU u' := sample_mul_shiftRight_mono h 1814 10

theorem tRV_le (v : Byte) : tRV v ≤ 357 := tRV_mono (sample_le_255 v)
theorem tGU_le (u : Byte) : tGU u ≤ 90 := tGU_mono (sample_le_255 u)
theorem tGV_le (v : Byte) : tGV v ≤ 182 := tGV_mono (sample_le_255 v)
theorem tBU_le (u : Byte) : tBU u ≤ 451 := tBU_mono (sample_le_255 u)

/-! ### The channels before the clamp -/

theorem red_range (y v : Byte) : -179 ≤ red y v ∧ red y v ≤ 433 := by
  have := tRV_le v
  unfold red
  omega

theorem green_range (y u v : Byte) : -137 ≤ green y u v ∧ green y u v ≤ 390 := by
  have := tGU_le u
  have := tGV_le v
  unfold green
  omega

theorem blue_range (y u : Byte) : -227 ≤ blue y u ∧ blue y u ≤ 479 := by
  have := tBU_le u
  unfold blue
  omega

theorem red_mono {y y' v v' : Byte} (hy : y ≤ y') (hv : v ≤ v') : red y v ≤ red y' v' := by
  have := BitVec.le_def.mp hy
  have := tRV_mono hv
  unfold red
  omega

/-- The chroma terms of green are subtracted, so its order in U and in V is the reverse. -/
theorem green_mono {y y' u u' v v' : Byte} (hy : y ≤ y') (hu : u' ≤ u) (hv : v' ≤ v) :
    green y u v ≤ green y' u' v' := by
  have := BitVec.le_def.mp hy
  have := tGU_mono hu
  have := tGV_mono hv
  unfold green
  omega

theorem blue_mono {y y' u u' : Byte} (hy : y ≤ y') (hu : u ≤ u') : blue y u ≤ blue y' u' := by
  have := BitVec.le_def.mp hy
  have := tBU_mono hu
  unfold blue
  omega

/-! ### The saturator -/

/-- The clamp as a number (R177). -/
theorem satU8_toNat (v : Int) : ((satU8 v).toNat : Int) = max 0 (min v 255) := by
  unfold satU8
  split_ifs with hneg hbig
  · simp only [BitVec.reduceToNat]
    omega
  · simp only [BitVec.reduceToNat]
    omega
  · rw [BitVec.toNat_ofInt]
    omega

theorem satU8_eq_zero_iff (v : Int) : satU8 v = 0 ↔ v ≤ 0 := by
  have := satU8_toNat v
  simp only [← BitVec.toNat_inj, BitVec.reduceToNat]
  omega

theorem satU8_eq_255_iff (v : Int) : satU8 v = 255 ↔ 255 ≤ v := by
  have := satU8_toNat v
  simp only [← BitVec.toNat_inj, BitVec.reduceToNat]
  omega

theorem satU8_mono {v w : Int} (h : v ≤ w) : satU8 v ≤ satU8 w := by
  have := satU8_toNat v
  have := satU8_toNat w
  rw [BitVec.le_def]
  omega

/-! ### The packer -/

/-- The packed channels as a number: each has the weight of its lane (R179). -/
theorem pack_toNat (r g b a : Byte) :
    (pack r g b a).toNat = r.toNat + 2 ^ 8 * g.toNat + 2 ^ 16 * b.toNat + 2 ^ 24 * a.toNat := by
  simp only [pack, toNat_append_add]
  omega

@[simp] theorem pack_redLane (r g b a : Byte) : (pack r g b a).extractLsb' 0 8 = r := by
  rw [← BitVec.toNat_inj, toNat_extract, pack_toNat]
  omega

@[simp] theorem pack_greenLane (r g b a : Byte) : (pack r g b a).extractLsb' 8 8 = g := by
  rw [← BitVec.toNat_inj, toNat_extract, pack_toNat]
  omega

@[simp] theorem pack_blueLane (r g b a : Byte) : (pack r g b a).extractLsb' 16 8 = b := by
  rw [← BitVec.toNat_inj, toNat_extract, pack_toNat]
  omega

@[simp] theorem pack_alphaLane (r g b a : Byte) : (pack r g b a).extractLsb' 24 8 = a := by
  rw [← BitVec.toNat_inj, toNat_extract, pack_toNat]
  omega

@[simp] theorem outputBytes_pack (r g b a : Byte) : outputBytes (pack r g b a) = [r, g, b, a] := by
  simp only [outputBytes, pack_redLane, pack_greenLane, pack_blueLane, pack_alphaLane]

@[simp] theorem convertPixel_redLane (y u v : Byte) : (convertPixel y u v).extractLsb' 0 8 = satU8 (red y v) :=
  pack_redLane ..

@[simp] theorem convertPixel_greenLane (y u v : Byte) : (convertPixel y u v).extractLsb' 8 8 = satU8 (green y u v) :=
  pack_greenLane ..

@[simp] theorem convertPixel_blueLane (y u v : Byte) : (convertPixel y u v).extractLsb' 16 8 = satU8 (blue y u) :=
  pack_blueLane ..

@[simp] theorem convertPixel_alphaLane (y u v : Byte) : (convertPixel y u v).extractLsb' 24 8 = 255 :=
  pack_alphaLane ..

/-! ### The statements -/

/-- Settles O34: a shift is a division by a power of two, and every product and term is largest at the sample 255. -/
theorem chromaTerms : Obligations.ChromaTerms := fun u v =>
  ⟨⟨rfl, tRV_eq_div v, sample_mul_le v 1436, tRV_le v⟩, ⟨rfl, tGU_eq_div u, sample_mul_le u 46549, tGU_le u⟩,
    ⟨rfl, tGV_eq_div v, sample_mul_le v 93604, tGV_le v⟩, ⟨rfl, tBU_eq_div u, sample_mul_le u 1814, tBU_le u⟩⟩

/-- Settles O35: the ranges of the sums follow from those of the terms. -/
theorem channelSums : Obligations.ChannelSums := by
  refine ⟨fun y u v => ⟨⟨?_, red_range y v⟩, ⟨?_, green_range y u v⟩, ⟨?_, blue_range y u⟩⟩, by decide⟩
  · rw [red, tRV_eq_div]
  · rw [green, tGU_eq_div, tGV_eq_div]
  · rw [blue, tBU_eq_div]

/-- Settles O38: a lane is a digit of the packed number to the base 256. -/
theorem pixelByteLanes : Obligations.PixelByteLanes :=
  ⟨fun r g b a => ⟨pack_redLane r g b a, pack_greenLane r g b a, pack_blueLane r g b a, pack_alphaLane r g b a,
    outputBytes_pack r g b a⟩, by decide, fun y u v => ⟨rfl, convertPixel_alphaLane y u v⟩⟩

/-- Settles O39: the clamp is 0 up to 0 and 255 from 255 on, so each threshold is that of the sum moved past its
bias. -/
theorem saturationThresholds : Obligations.SaturationThresholds := by
  intro y u v
  simp only [satU8_eq_zero_iff, satU8_eq_255_iff, red, green, blue]
  omega

/-- Settles O40: each lane is the clamp of its channel's sum, and the clamp keeps the order of the sums. -/
theorem pixelProperties : Obligations.PixelProperties := by
  refine ⟨convertPixel_alphaLane, fun y u u' v => ?_, fun y u v v' => ?_, fun y y' u v hy => ?_,
    fun y u v v' hv => ?_, fun y u u' v hu => ?_, by decide, by decide⟩
  · rw [convertPixel_redLane, convertPixel_redLane]
  · rw [convertPixel_blueLane, convertPixel_blueLane]
  · simp only [convertPixel_redLane, convertPixel_greenLane, convertPixel_blueLane]
    exact ⟨satU8_mono (red_mono hy v.le_refl), satU8_mono (green_mono hy u.le_refl v.le_refl),
      satU8_mono (blue_mono hy u.le_refl)⟩
  · simp only [convertPixel_redLane, convertPixel_greenLane]
    exact ⟨satU8_mono (red_mono y.le_refl hv), satU8_mono (green_mono y.le_refl u.le_refl hv)⟩
  · simp only [convertPixel_greenLane, convertPixel_blueLane]
    exact ⟨satU8_mono (blue_mono y.le_refl hu), satU8_mono (green_mono y.le_refl hu v.le_refl)⟩

end Sys2Proof.Machine

/-! PROOFS. What an answered command makes of a state, whichever command it was, and the status each kind of word is
answered with; then the statements on errors (60_exceptions.md R203 to R206). -/

namespace Sys2Proof.Machine

/-! ### An answered command -/

/-- The state an error leaves, with its response and sticky bit by the error's code (R97, R203). -/
theorem raise_eq (e : Err) (s : State) :
    raise e s = { s with
      rspQueue := s.rspQueue ++ [e.code ++ 0#60]
      cfg := { s.cfg with faultStatus := s.cfg.faultStatus ||| (1#32 <<< e.code.toNat) } } :=
  raise_eq_of_word (by cases e <;> decide) rfl s

/-- `t` is `s` with a command answered: with an error, or with `OK`, which leaves FAULT_STATUS as it was (R46, R203). -/
def Answered (s t : State) : Prop :=
  (∃ e, t = raise e s) ∨ ∃ f d, f.faultStatus = s.cfg.faultStatus ∧ t = respond .ok d { s with cfg := f }

theorem Answered.cmdQueue_eq {s t : State} (h : Answered s t) : t.cmdQueue = s.cmdQueue := by
  rcases h with ⟨e, rfl⟩ | ⟨f, d, -, rfl⟩ <;> rfl

theorem Answered.exists_rspQueue_eq {s t : State} (h : Answered s t) : ∃ r, t.rspQueue = s.rspQueue ++ [r] := by
  rcases h with ⟨e, rfl⟩ | ⟨f, d, -, rfl⟩
  · exact ⟨_, raise_rspQueue e s⟩
  · exact ⟨_, respond_rspQueue .ok d _⟩

/-- The status of the response names the error that was raised (R97, R203). -/
theorem Answered.eq_raise {s t : State} {r : RspWord} {e : Err} (h : Answered s t)
    (ht : t.rspQueue = s.rspQueue ++ [r]) (hr : rspStatus r = e.code) : t = raise e s := by
  rcases h with ⟨e', rfl⟩ | ⟨f, d, -, rfl⟩
  · have hcode : e'.code = e.code := (rspStatus_of_append_eq ht).symm.trans hr
    rw [Err.code_injective hcode]
  · have hcode : (0x0 : BitVec 4) = e.code := (rspStatus_of_append_eq ht).symm.trans hr
    exact absurd hcode.symm e.code_ne_zero

/-- An answer sets the sticky flag of its status and no other (R46, R202, R203). -/
theorem Answered.sticky_iff {s t : State} {r : RspWord} (h : Answered s t) (ht : t.rspQueue = s.rspQueue ++ [r])
    (e : Err) : t.cfg.sticky e = true ↔ s.cfg.sticky e = true ∨ rspStatus r = e.code := by
  rcases h with ⟨e', rfl⟩ | ⟨f, d, hf, rfl⟩
  · have hcode : rspStatus r = e'.code := rspStatus_of_append_eq ht
    have hiff : e'.code = e.code ↔ e' = e := ⟨Err.code_injective, congrArg Err.code⟩
    rw [hcode, hiff, raise_cfg, RegFile.sticky_setSticky, Bool.or_eq_true, decide_eq_true_iff]
  · have hne : rspStatus r ≠ e.code := by
      rw [rspStatus_of_append_eq ht]
      exact e.code_ne_zero.symm
    simp [hne, RegFile.sticky, hf]

/-- A CFGW that goes through is the one command that changes a register, never FAULT_STATUS (R46, R121). -/
theorem exec_next_answered {i : Instr} {s t : State} (h : exec i s = .next t) : Answered s t := by
  rcases exec_next_cases h with ⟨e, rfl⟩ | ⟨f, d, rfl, rfl | ⟨reg, data, -, hw⟩⟩
  · exact .inl ⟨e, rfl⟩
  · exact .inr ⟨_, d, rfl, rfl⟩
  · exact .inr ⟨f, d, (RegFile.write_keeps_reserved hw).1, rfl⟩

/-! ### The step -/

theorem step_of_decode_eq_ok {s : State} {c : CmdWord} {rest : List CmdWord} {i : Instr}
    (hq : s.cmdQueue = c :: rest) (hr : s.rspQueue.length < Config.rspDepth) (hi : decode c = .ok i) :
    step s = exec i { s with cmdQueue := rest } := by
  rw [step_of_next hq hr, hi]

/-- A step that has room takes the oldest word and answers it, whether it is a command or illegal (R97, R100). -/
theorem step_next_answered {s t : State} {c : CmdWord} {rest : List CmdWord} (hq : s.cmdQueue = c :: rest)
    (hr : s.rspQueue.length < Config.rspDepth) (h : step s = .next t) : Answered { s with cmdQueue := rest } t := by
  cases hd : decode c with
  | ok i =>
    rw [step_of_decode_eq_ok hq hr hd] at h
    exact exec_next_answered h
  | error e =>
    rw [step_of_decode_eq_error hq hr hd] at h
    cases h
    exact .inl ⟨.opcode, rfl⟩

/-- A stalled block answers nothing, so a step that appended a response had room for it (R237). -/
theorem rspQueue_lt_of_step_appends {s t : State} {c : CmdWord} {rest : List CmdWord} {r : RspWord}
    (hq : s.cmdQueue = c :: rest) (h : step s = .next t) (ht : t.rspQueue = s.rspQueue ++ [r]) :
    s.rspQueue.length < Config.rspDepth := by
  rcases step_next_cases h with ⟨-, rfl⟩ | ⟨-, -, -, hr, -⟩
  · simp at ht
  · exact hr

/-! ### The status of each kind of word -/

/-- R100: an illegal word is answered with status 0x1. -/
theorem rspStatus_of_illegalWord {s t : State} {c : CmdWord} {rest : List CmdWord} {r : RspWord}
    (hq : s.cmdQueue = c :: rest) (hr : s.rspQueue.length < Config.rspDepth) (hc : illegalWord c)
    (h : step s = .next t) (ht : t.rspQueue = s.rspQueue ++ [r]) : rspStatus r = 0x1 := by
  obtain ⟨e, he⟩ := decode_error_of_illegalWord hc
  cases (step_of_decode_eq_error hq hr he).symm.trans h
  exact rspStatus_of_append_eq ht

/-- The status of a CFGW (R121). -/
theorem rspStatus_cfgw {reg : RegIndex} {data : Word} {s t : State} {r : RspWord}
    (h : exec (.cfgw reg data) s = .next t) (ht : t.rspQueue = s.rspQueue ++ [r]) :
    rspStatus r = if 0xB ≤ reg.toNat then 0x2 else 0x0 := by
  split_ifs with hreg
  · have hw : s.cfg.write reg data = none := (s.cfg.write_eq_none reg data).mpr hreg
    cases (exec_cfgw_of_write_eq_none hw).symm.trans h
    exact rspStatus_of_append_eq ht
  · obtain ⟨f, hw⟩ := s.cfg.exists_write_eq_some (reg := reg) (by omega) data
    cases (exec_cfgw_of_write_eq_some hw).symm.trans h
    exact rspStatus_of_append_eq ht

/-- The status of a CFGR (R124). -/
theorem rspStatus_cfgr {reg : RegIndex} {s t : State} {r : RspWord} (h : exec (.cfgr reg) s = .next t)
    (ht : t.rspQueue = s.rspQueue ++ [r]) : rspStatus r = if 0xC ≤ reg.toNat then 0x2 else 0x0 := by
  split_ifs with hreg
  · have hread : s.cfg.read reg = none := (s.cfg.read_eq_none reg).mpr hreg
    cases (exec_cfgr_of_read_eq_none hread).symm.trans h
    exact rspStatus_of_append_eq ht
  · obtain ⟨v, hv⟩ := Option.ne_none_iff_exists'.mp (mt (s.cfg.read_eq_none reg).mp hreg)
    cases (exec_cfgr_of_read_eq_some hv).symm.trans h
    exact rspStatus_of_append_eq ht

/-- A CONVERT that fails a check is answered with that check's error (R141). -/
theorem rspStatus_convert_of_translate_eq_error {x y : Coord} {s t : State} {r : RspWord} {e : Err}
    (he : translate s.cfg x y = .error e) (h : exec (.convert x y) s = .next t)
    (ht : t.rspQueue = s.rspQueue ++ [r]) : rspStatus r = e.code := by
  cases (exec_convert_of_translate_eq_error he).symm.trans h
  exact rspStatus_of_append_eq ht

/-- The coordinate check is the second: under a good configuration its failure is the error (R141, R204). -/
theorem translate_of_not_inDomain {f : RegFile} {x y : Coord} (hc : f.configOk) (hd : ¬ f.inDomain x y) :
    translate f x y = .error .coord := by
  rcases translate_spec f x y with ⟨h, -⟩ | ⟨-, -, ht⟩ | ⟨-, h, -⟩ | ⟨⟨-, h, -⟩, -⟩
  · exact absurd hc h
  · exact ht
  all_goals exact absurd h hd

/-- Some read of a CONVERT is answered with `BusError` (R147). -/
def SomeBusError (m : SourceMemory) (a : PlaneAddrs) : Prop :=
  m.memRead a.y = .busError ∨ m.memRead a.u = .busError ∨ m.memRead a.v = .busError

theorem someBusError_of_readPlanes {m : SourceMemory} {a : PlaneAddrs} (h : readPlanes m a = .busError) :
    SomeBusError m a := by
  rcases PlaneData.ofReplies_spec (m.memRead a.y) (m.memRead a.u) (m.memRead a.v) with
    ⟨-, hn⟩ | ⟨-, hb, -⟩ | ⟨_, _, _, -, -, -, hs⟩
  · cases hn.symm.trans h
  · exact hb
  · cases hs.symm.trans h

theorem not_someBusError_of_readPlanes {m : SourceMemory} {a : PlaneAddrs} {sy su sv : Byte}
    (h : readPlanes m a = .samples sy su sv) : ¬ SomeBusError m a := by
  rcases PlaneData.ofReplies_spec (m.memRead a.y) (m.memRead a.u) (m.memRead a.v) with
    ⟨-, hn⟩ | ⟨-, -, hb⟩ | ⟨_, _, _, hy, hu, hv, -⟩
  · cases hn.symm.trans h
  · cases hb.symm.trans h
  · simp [SomeBusError, hy, hu, hv]

/-- The status of an answered CONVERT that passed its checks: its reads were all answered, with a `BusError` among
them or without (R147). -/
theorem rspStatus_convert_of_readsPlanes {x y : Coord} {s t : State} {r : RspWord} (hp : s.cfg.readsPlanes x y)
    (h : exec (.convert x y) s = .next t) (ht : t.rspQueue = s.rspQueue ++ [r]) :
    (SomeBusError s.toSourceMemory (planeAddrs s.cfg x y) ∧ rspStatus r = 0x6) ∨
    (¬ SomeBusError s.toSourceMemory (planeAddrs s.cfg x y) ∧ rspStatus r = 0x0) := by
  rcases exec_convert_next_cases h with ⟨e, he, -⟩ | ⟨-, ⟨hb, rfl⟩ | ⟨sy, su, sv, hs, rfl⟩⟩
  · cases he.symm.trans (translate_of_readsPlanes hp)
  · exact .inl ⟨someBusError_of_readPlanes hb, rspStatus_of_append_eq ht⟩
  · exact .inr ⟨not_someBusError_of_readPlanes hs, rspStatus_of_append_eq ht⟩

/-! ### A run -/

/-- An idle block has room for a command, which is then the only one (R9, R91). -/
theorem accept_of_idle {s : State} (hs : s.idle) (w : CmdWord) : accept w s = some { s with cmdQueue := [w] } := by
  simp [accept, cmdFull, hs.1, Config.reqDepth_pos.ne']

/-- From an idle block one word is accepted, answered and its response taken (R15). -/
theorem serve_next {w : CmdWord} {s s' : State} {r : RspWord} (hs : s.idle) (h : serve w s = .next (r, s')) :
    ∃ t, Answered s t ∧ t.rspQueue = s.rspQueue ++ [r] ∧ s' = { t with rspQueue := [] } := by
  simp only [serve, accept_of_idle hs] at h
  cases hstep : step { s with cmdQueue := [w] } with
  | fault _ => simp [hstep] at h
  | refused _ => simp [hstep] at h
  | next t =>
    have hroom : s.rspQueue.length < Config.rspDepth := by rw [hs.2]; exact Config.rspDepth_pos
    have hans : Answered { s with cmdQueue := [] } t :=
      step_next_answered (s := { s with cmdQueue := [w] }) rfl hroom hstep
    rw [← hs.1] at hans
    obtain ⟨r', hr'⟩ := hans.exists_rspQueue_eq
    have htake : t.rspQueue = [r'] := by rw [hr', hs.2, List.nil_append]
    simp only [hstep, take, htake, Host.Outcome.next.injEq, Prod.mk.injEq] at h
    obtain ⟨rfl, rfl⟩ := h
    exact ⟨t, hans, hr', rfl⟩

/-- A word served from an idle block leaves it idle, and sets the sticky flag of its response's status and no other. -/
theorem serve_next_sticky {w : CmdWord} {s s' : State} {r : RspWord} (hs : s.idle)
    (h : serve w s = .next (r, s')) :
    s'.idle ∧ ∀ e : Err, s'.cfg.sticky e = true ↔ s.cfg.sticky e = true ∨ rspStatus r = e.code := by
  obtain ⟨t, hans, ht, rfl⟩ := serve_next hs h
  exact ⟨⟨hans.cmdQueue_eq.trans hs.1, rfl⟩, hans.sticky_iff ht⟩

theorem runProgram_cons_next {w : CmdWord} {ws : List CmdWord} {s t : State} {rs : List RspWord}
    (h : runProgram (w :: ws) s = .next (rs, t)) :
    ∃ r s' rs', serve w s = .next (r, s') ∧ runProgram ws s' = .next (rs', t) ∧ rs = r :: rs' := by
  simp only [runProgram] at h
  cases hserve : serve w s with
  | fault _ => simp [hserve] at h
  | refused _ => simp [hserve] at h
  | next p =>
    cases hrun : runProgram ws p.2 with
    | fault _ => simp [hserve, hrun] at h
    | refused _ => simp [hserve, hrun] at h
    | next q =>
      simp only [hserve, hrun, Host.Outcome.next.injEq, Prod.mk.injEq] at h
      obtain ⟨rfl, rfl⟩ := h
      exact ⟨p.1, p.2, q.1, rfl, hrun, rfl⟩

/-! ### The statements -/

/-- Settles O46: the response's status names the error raised, and raising it is all that was done; a step that
appended a response had room and took the head of the queue. -/
theorem errorChangesOnlyItsStickyBit : Obligations.ErrorChangesOnlyItsStickyBit := by
  refine ⟨fun i s t r e h ht hcode => ?_, fun s t c rest r e hq h ht hcode => ?_⟩
  · rw [← raise_eq]
    exact (exec_next_answered h).eq_raise ht hcode
  · have hr := rspQueue_lt_of_step_appends hq h ht
    have hraise : t = raise e { s with cmdQueue := rest } := (step_next_answered hq hr h).eq_raise ht hcode
    rw [hraise, raise_eq]

/-- Settles O15: a word with a zero field broken is illegal, any other decodes to its command, whose index decides. -/
theorem configCommandReportsFirstError : Obligations.ConfigCommandReportsFirstError := by
  intro s t c rest r hq hr h ht
  refine ⟨fun hop => ?_, fun hop => ?_⟩
  · by_cases hbroken : c.extractLsb' 36 24 ≠ 0#24
    · rw [if_pos hbroken]
      exact rspStatus_of_illegalWord hq hr (.inr (.inr (.inl ⟨hop, hbroken⟩))) h ht
    · rw [if_neg hbroken]
      rw [step_of_decode_eq_ok hq hr (decode_eq_cfgw hop (not_not.mp hbroken))] at h
      exact rspStatus_cfgw h ht
  · by_cases hbroken : c.extractLsb' 36 24 ≠ 0#24 ∨ c.extractLsb' 0 32 ≠ 0#32
    · rw [if_pos hbroken]
      exact rspStatus_of_illegalWord hq hr (.inr (.inr (.inr ⟨hop, hbroken⟩))) h ht
    · obtain ⟨hzero, hlow⟩ := not_or.mp hbroken
      rw [if_neg hbroken]
      rw [step_of_decode_eq_ok hq hr (decode_eq_cfgr hop (not_not.mp hzero) (not_not.mp hlow))] at h
      exact rspStatus_cfgr h ht

/-- Settles O24: a broken zero field makes the word illegal, each failed check names its error, and past the checks an
answered CONVERT met a `BusError` or converted its samples. -/
theorem convertReportsFirstError : Obligations.ConvertReportsFirstError := by
  intro s t c rest r hq hr hop h ht x y busError
  refine ⟨fun hzero => rspStatus_of_illegalWord hq hr (.inr (.inl ⟨hop, hzero⟩)) h ht, fun hzero => ?_⟩
  rw [step_of_decode_eq_ok hq hr (decode_eq_convert hop hzero)] at h
  have onError {e : Err} (he : translate s.cfg x y = .error e) : rspStatus r = e.code :=
    rspStatus_convert_of_translate_eq_error (s := { s with cmdQueue := rest }) he h ht
  have onReads (hp : s.cfg.readsPlanes x y) : busError ∧ rspStatus r = 0x6 ∨ ¬ busError ∧ rspStatus r = 0x0 :=
    rspStatus_convert_of_readsPlanes (s := { s with cmdQueue := rest }) hp h ht
  refine ⟨fun hc => onError (translate_of_not_configOk hc x y),
    fun hc hd => onError (translate_of_not_inDomain hc hd),
    fun hc hd hb => onError (translate_of_not_inBuffers hc hd hb), fun hp hbus => ?_, fun hp hbus => ?_⟩
  · exact ((onReads hp).resolve_right fun hnone => hnone.1 hbus).2
  · exact ((onReads hp).resolve_left fun hsome => hbus hsome.1).2

/-- Settles O56, by induction on the words: each served word adds its response, and the flag of that response's status
if it is an error. -/
theorem faultStatusIsOrOfErrors : Obligations.FaultStatusIsOrOfErrors := by
  intro ws
  induction ws with
  | nil =>
    rintro s t rs - h
    cases h
    simp
  | cons w ws ih =>
    intro s t rs hs h
    obtain ⟨r, s', rs', hserve, hrun, rfl⟩ := runProgram_cons_next h
    obtain ⟨hidle, hsticky⟩ := serve_next_sticky hs hserve
    obtain ⟨hlen, hflags⟩ := ih s' t rs' hidle hrun
    refine ⟨by rw [List.length_cons, List.length_cons, hlen], fun e => ?_⟩
    rw [hflags e, hsticky e, or_assoc, List.exists_mem_cons_iff]

end Sys2Proof.Machine

/-! PROOFS. The bits of FAULT_STATUS along every move but reset: an answer adds at most the bit of its error, and the
moves of the host and the platform leave every register; then the statement on reset (70_reset_and_hazards.md R230). -/

namespace Sys2Proof.Machine

/-! ### The converter's step -/

/-- An answer keeps every bit of FAULT_STATUS: an error sets one more, `OK` none (R46, R203). -/
theorem Answered.faultStatus_kept {s t : State} (h : Answered s t) :
    t.cfg.faultStatus &&& s.cfg.faultStatus = s.cfg.faultStatus := by
  rcases h with ⟨e, rfl⟩ | ⟨f, d, hf, rfl⟩
  · rw [raise_cfg, RegFile.setSticky_faultStatus]
    ext i hi
    simpa using Or.inl
  · rw [respond_cfg, hf, BitVec.and_self]

theorem step_next_faultStatus_kept {s t : State} (h : step s = .next t) :
    t.cfg.faultStatus &&& s.cfg.faultStatus = s.cfg.faultStatus := by
  rcases step_next_cases h with ⟨-, rfl⟩ | ⟨c, rest, hq, hr, -⟩
  · exact BitVec.and_self
  · exact (step_next_answered hq hr h).faultStatus_kept

/-! ### The moves of the host and the platform -/

theorem accept_some_cfg {w : CmdWord} {s t : State} (h : accept w s = some t) : t.cfg = s.cfg := by
  unfold accept at h
  split at h
  · cases h
  · cases h
    rfl

theorem take_some_cfg {s t : State} {r : RspWord} (h : take s = some (r, t)) : t.cfg = s.cfg := by
  unfold take at h
  split at h
  · cases h
  · cases h
    rfl

/-- The host and the platform write no register but by reset: an offer and a take move a word or nothing (R237), and a
memory write that is made changes the memory alone. -/
theorem Event.apply_next_cfg {e : Event} {s t : State} (hreset : e ≠ .reset) (hexec : e ≠ .execute)
    (h : e.apply s = .next t) : t.cfg = s.cfg := by
  cases e with
  | offer w =>
    cases h
    cases ha : accept w s with
    | none => rfl
    | some s' => exact accept_some_cfg ha
  | execute => exact absurd rfl hexec
  | take =>
    cases h
    cases ht : Machine.take s with
    | none => rfl
    | some p => exact take_some_cfg ht
  | reset => exact absurd rfl hreset
  | memory a r =>
    simp only [Event.apply, hostMemory] at h
    split at h
    · cases h
    · cases h
      exact setReply_cfg a r s

/-! ### The statement -/

/-- Settles O49: reset answers the block of R52, the step keeps every set bit, and no other move writes a register. -/
theorem onlyResetClearsFaultStatus : Obligations.OnlyResetClearsFaultStatus := by
  refine ⟨fun s => ⟨applyReset s, rfl, fun i hi => RegFile.read_reset hi, rfl, rfl⟩, fun e s t hreset h => ?_⟩
  by_cases hexec : e = .execute
  · subst hexec
    exact step_next_faultStatus_kept h
  · rw [Event.apply_next_cfg hreset hexec h, BitVec.and_self]

end Sys2Proof.Machine

/-! PROOFS. The fields of an encoded command and the one word of each command, so that decoder and encoder are inverse
to each other (30_encoding.md R92 to R101); then the statements on words and lines. -/

namespace Sys2Proof

/-! ### Encoder and decoder -/

/-- The fields of a CONVERT's word (R93). -/
theorem fields_encode_convert (x y : Coord) :
    opField (encode (.convert x y)) = 0x1 ∧ zeroFieldC (encode (.convert x y)) = 0 ∧
    xField (encode (.convert x y)) = x ∧ yField (encode (.convert x y)) = y := by
  simp only [← BitVec.toNat_inj, opField_toNat, zeroFieldC_toNat, xField_toNat, yField_toNat, encode_convert_toNat,
    BitVec.reduceToNat]
  omega

/-- The fields of a CFGW's word (R94). -/
theorem fields_encode_cfgw (reg : RegIndex) (data : Word) :
    opField (encode (.cfgw reg data)) = 0x2 ∧ zeroFieldWR (encode (.cfgw reg data)) = 0 ∧
    regField (encode (.cfgw reg data)) = reg ∧ dataField (encode (.cfgw reg data)) = data := by
  simp only [← BitVec.toNat_inj, opField_toNat, zeroFieldWR_toNat, regField_toNat, dataField_toNat,
    encode_cfgw_toNat, BitVec.reduceToNat]
  omega

/-- The fields of a CFGR's word (R95). -/
theorem fields_encode_cfgr (reg : RegIndex) :
    opField (encode (.cfgr reg)) = 0x3 ∧ zeroFieldWR (encode (.cfgr reg)) = 0 ∧
    dataField (encode (.cfgr reg)) = 0 ∧ regField (encode (.cfgr reg)) = reg := by
  simp only [← BitVec.toNat_inj, opField_toNat, zeroFieldWR_toNat, regField_toNat, dataField_toNat,
    encode_cfgr_toNat, BitVec.reduceToNat]
  omega

theorem decode_encode (i : Instr) : decode (encode i) = .ok i := by
  cases i with
  | convert x y =>
    obtain ⟨hop, hzero, hx, hy⟩ := fields_encode_convert x y
    rw [decode_eq_convert hop hzero, hx, hy]
  | cfgw reg data =>
    obtain ⟨hop, hzero, hreg, hdata⟩ := fields_encode_cfgw reg data
    rw [decode_eq_cfgw hop hzero, hreg, hdata]
  | cfgr reg =>
    obtain ⟨hop, hzero, hlow, hreg⟩ := fields_encode_cfgr reg
    rw [decode_eq_cfgr hop hzero hlow, hreg]

theorem encode_convert_fields {c : CmdWord} (hop : opField c = 0x1) (hzero : zeroFieldC c = 0) :
    encode (.convert (xField c) (yField c)) = c := by
  simp only [← BitVec.toNat_inj, opField_toNat, zeroFieldC_toNat, BitVec.reduceToNat] at hop hzero
  rw [← BitVec.toNat_inj, encode_convert_toNat, xField_toNat, yField_toNat]
  omega

theorem encode_cfgw_fields {c : CmdWord} (hop : opField c = 0x2) (hzero : zeroFieldWR c = 0) :
    encode (.cfgw (regField c) (dataField c)) = c := by
  simp only [← BitVec.toNat_inj, opField_toNat, zeroFieldWR_toNat, BitVec.reduceToNat] at hop hzero
  rw [← BitVec.toNat_inj, encode_cfgw_toNat, regField_toNat, dataField_toNat]
  omega

theorem encode_cfgr_fields {c : CmdWord} (hop : opField c = 0x3) (hzero : zeroFieldWR c = 0)
    (hlow : dataField c = 0) : encode (.cfgr (regField c)) = c := by
  simp only [← BitVec.toNat_inj, opField_toNat, zeroFieldWR_toNat, dataField_toNat, BitVec.reduceToNat]
    at hop hzero hlow
  rw [← BitVec.toNat_inj, encode_cfgr_toNat, regField_toNat]
  omega

/-- A word has a command exactly when it is that command's one word (R101). -/
theorem decode_eq_ok_iff {c : CmdWord} {i : Instr} : decode c = .ok i ↔ c = encode i := by
  refine ⟨fun hok => ?_, fun hc => hc ▸ decode_encode i⟩
  rcases format_or_illegalWord c with ⟨hop, hzero⟩ | ⟨hop, hzero⟩ | ⟨hop, hzero, hlow⟩ | hillegal
  · cases (decode_eq_convert hop hzero).symm.trans hok
    exact (encode_convert_fields hop hzero).symm
  · cases (decode_eq_cfgw hop hzero).symm.trans hok
    exact (encode_cfgw_fields hop hzero).symm
  · cases (decode_eq_cfgr hop hzero hlow).symm.trans hok
    exact (encode_cfgr_fields hop hzero hlow).symm
  · exact absurd hok ((illegalWord_iff c).mp hillegal i)

/-- The operands of a command are in the ranges of R103, since they have the widths of the fields. -/
theorem Instr.wf_eq_true (i : Instr) : i.wf = true := by
  cases i with
  | convert x y => exact (Laws.TableRow.convert x y).1
  | cfgw reg data => exact (Laws.TableRow.cfgw reg data).1
  | cfgr reg => exact (Laws.TableRow.cfgr reg).1

/-! ### The statements -/

/-- Settles O2: the encoder puts each operand into the field the decoder takes it from. -/
theorem decodeOfEncode : Obligations.DecodeOfEncode := decode_encode

/-- Settles O3: the fields of a format leave no bit of a legal word free. -/
theorem encodeOfDecode : Obligations.EncodeOfDecode := fun _ _ hok => (decode_eq_ok_iff.mp hok).symm

/-- Settles O1: legal words are the encodings of their commands, and each illegal one breaks a field. -/
theorem specWordsDecode : Obligations.SpecWordsDecode := by
  unfold Obligations.SpecWordsDecode
  decide

/-- Settles O6: an operand in range is its own field value, and a line out of range has no word. -/
theorem assemblerFollowsEncoding : Obligations.AssemblerFollowsEncoding := by
  refine ⟨fun i => ?_, fun l hl => by simp [Machine.assemble, hl]⟩
  have hwf : i.toLine.wf = true := i.wf_eq_true
  simp only [Machine.assemble, if_pos hwf]
  cases i <;> simp only [Instr.toLine, BitVec.ofNat_toNat, BitVec.setWidth_eq]

end Sys2Proof

/-! PROOFS. What a CFGW leaves in every register and what a CFGR answers, by the index; then the statements on the two
configuration commands (40_config.md R121 to R125). -/

namespace Sys2Proof.Machine

/-! ### Reading and writing a register -/

/-- A CFGR answers every index below the reserved ones (R124). -/
theorem RegFile.exists_read_eq_some (f : RegFile) {reg : RegIndex} (h : reg.toNat < 0xC) : ∃ v, f.read reg = some v :=
  Option.ne_none_iff_exists'.mp fun hn => by
    have := (f.read_eq_none reg).mp hn
    omega

/-- The whole state a CFGR that goes through leaves (R97, R124). -/
theorem exec_cfgr_eq {s : State} {reg : RegIndex} {v : Word} (h : s.cfg.read reg = some v) :
    exec (.cfgr reg) s = .next { s with rspQueue := s.rspQueue ++ [v.setWidth 64] } := by
  rw [exec_cfgr_of_read_eq_some h, respond, responseWord_ok]

/-- The whole state a CFGW that goes through leaves (R97, R121). -/
theorem exec_cfgw_eq {s : State} {reg : RegIndex} {data : Word} {f : RegFile} (h : s.cfg.write reg data = some f) :
    exec (.cfgw reg data) s = .next { s with cfg := f, rspQueue := s.rspQueue ++ [0x0000000000000000] } := by
  rw [exec_cfgw_of_write_eq_some h, respond, responseWord_ok]
  rfl

/-- The reserved half of WIDTH and HEIGHT reads 0 in a state of the invariant (R35, R36). -/
theorem State.Inv.read_reserved {s : State} (hinv : s.Inv) {reg : RegIndex} (hreg : reg.toNat ≤ 1) {v : Word}
    (hv : s.cfg.read reg = some v) : v.extractLsb' 16 16 = 0 := by
  have hcases : reg = 0x0 ∨ reg = 0x1 := by
    simp only [← BitVec.toNat_inj, BitVec.reduceToNat]
    omega
  rcases hcases with rfl | rfl
  · obtain rfl : s.cfg.width = v := Option.some.inj hv
    exact hinv.widthReserved
  · obtain rfl : s.cfg.height = v := Option.some.inj hv
    exact hinv.heightReserved

/-! ### The statements -/

/-- Settles O7: an index is looked up in the map of R34, which has no entry from 0xC on. -/
theorem registerMap : Obligations.RegisterMap := fun f =>
  ⟨rfl, rfl, rfl, rfl, rfl, rfl, rfl, rfl, rfl, rfl, rfl, rfl, f.read_eq_none⟩

/-- Settles O8: the write is refused from 0xB on, and below it sets the one register the index names. -/
theorem cfgwWritesItsRegister : Obligations.CfgwWritesItsRegister := by
  refine fun s reg data => ⟨fun hreg => ?_, fun hreg => ?_⟩
  · rw [exec_cfgw_of_write_eq_none ((s.cfg.write_eq_none reg data).mpr hreg), raise_reg_eq]
  · obtain ⟨f, hf⟩ := s.cfg.exists_write_eq_some hreg data
    refine ⟨f, exec_cfgw_eq hf, ?_, fun q hq => ?_⟩
    · rw [RegFile.read_write hf reg, if_pos rfl]
    · rw [RegFile.read_write hf q, if_neg hq]

/-- Settles O9: the read is refused from 0xC on, and below it answers the register the index names. -/
theorem cfgrAnswersItsRegister : Obligations.CfgrAnswersItsRegister := by
  refine ⟨fun s reg => ⟨fun hreg => ?_, fun hreg => ?_⟩, fun reg hreg => RegFile.read_reset hreg⟩
  · rw [exec_cfgr_of_read_eq_none ((s.cfg.read_eq_none reg).mpr hreg), raise_reg_eq]
  · obtain ⟨v, hv⟩ := s.cfg.exists_read_eq_some hreg
    exact ⟨v, hv, exec_cfgr_eq hv, fun hinv hle => hinv.read_reserved hle hv⟩

/-- Settles O10: the register file a CFGW leaves reads back what the write kept of its data. -/
theorem cfgwIsSeenByNextCfgr : Obligations.CfgwIsSeenByNextCfgr := by
  intro s reg data hreg
  obtain ⟨f, hf⟩ := s.cfg.exists_write_eq_some hreg data
  have hread := RegFile.read_write hf reg
  rw [if_pos rfl] at hread
  refine ⟨_, exec_cfgw_eq hf, ?_⟩
  rw [exec_cfgr_eq hread, apply_ite (BitVec.setWidth 64), BitVec.setWidth_setWidth (by decide)]

/-- Settles O13: the refused CFGR leaves its sticky bit in the register that the next one reads. -/
theorem faultStatusReadSeesErrors : Obligations.FaultStatusReadSeesErrors := by
  intro s reg hreg
  have hrefused := exec_cfgr_of_read_eq_none ((s.cfg.read_eq_none reg).mpr hreg)
  rw [raise_reg_eq] at hrefused
  exact ⟨_, _, hrefused, exec_cfgr_eq rfl, List.append_assoc .., rfl⟩

end Sys2Proof.Machine

/-! PROOFS. What three replies make of a CONVERT, and the bounds of a frame by those of its last pixel; then the
statements on CONVERT's outcomes and on whole frames (41_convert.md R141 to R150). -/

namespace Sys2Proof.Machine

/-! ### CONVERT by its replies -/

theorem raise_coord_eq (s : State) :
    raise .coord s = { s with
      rspQueue := s.rspQueue ++ [0x4000000000000000]
      cfg := { s.cfg with faultStatus := s.cfg.faultStatus ||| 0x10 } } :=
  raise_eq_of_word (by decide) (by decide) s

theorem raise_bus_eq (s : State) :
    raise .bus s = { s with
      rspQueue := s.rspQueue ++ [0x6000000000000000]
      cfg := { s.cfg with faultStatus := s.cfg.faultStatus ||| 0x40 } } :=
  raise_eq_of_word (by decide) (by decide) s

/-- Some read of a CONVERT is never answered (R147, R238). -/
def SomeUnanswered (m : SourceMemory) (a : PlaneAddrs) : Prop :=
  m.memRead a.y = .never ∨ m.memRead a.u = .never ∨ m.memRead a.v = .never

theorem readPlanes_of_someUnanswered {m : SourceMemory} {a : PlaneAddrs} (h : SomeUnanswered m a) :
    readPlanes m a = .never := by
  rcases PlaneData.ofReplies_spec (m.memRead a.y) (m.memRead a.u) (m.memRead a.v) with
    ⟨-, hn⟩ | ⟨⟨hy, hu, hv⟩, -⟩ | ⟨_, _, _, hy, hu, hv, -⟩
  · exact hn
  · exact absurd h (by simp [SomeUnanswered, hy, hu, hv])
  · exact absurd h (by simp [SomeUnanswered, hy, hu, hv])

theorem readPlanes_of_someBusError {m : SourceMemory} {a : PlaneAddrs} (hn : ¬ SomeUnanswered m a)
    (hb : SomeBusError m a) : readPlanes m a = .busError := by
  rcases PlaneData.ofReplies_spec (m.memRead a.y) (m.memRead a.u) (m.memRead a.v) with
    ⟨h, -⟩ | ⟨-, -, h⟩ | ⟨_, _, _, hy, hu, hv, -⟩
  · exact absurd h hn
  · exact h
  · exact absurd hb (by simp [SomeBusError, hy, hu, hv])

theorem readPlanes_of_bytes {m : SourceMemory} {a : PlaneAddrs} {sy su sv : Byte} (hy : m.memRead a.y = .byte sy)
    (hu : m.memRead a.u = .byte su) (hv : m.memRead a.v = .byte sv) : readPlanes m a = .samples sy su sv := by
  rw [readPlanes, hy, hu, hv]
  rfl

theorem exec_convert_of_someUnanswered {s : State} {x y : Coord} (hr : s.cfg.readsPlanes x y)
    (h : SomeUnanswered s.toSourceMemory (planeAddrs s.cfg x y)) :
    exec (.convert x y) s = .fault .readNeverAnswered := by
  simp only [exec, execConvert, translate_of_readsPlanes hr, readPlanes_of_someUnanswered h]

/-- The whole state a CONVERT that completes leaves (R97, R141). -/
theorem exec_convert_of_bytes {s : State} {x y : Coord} {sy su sv : Byte} (hr : s.cfg.readsPlanes x y)
    (hy : s.memRead (planeAddrs s.cfg x y).y = .byte sy) (hu : s.memRead (planeAddrs s.cfg x y).u = .byte su)
    (hv : s.memRead (planeAddrs s.cfg x y).v = .byte sv) :
    exec (.convert x y) s = .next { s with rspQueue := s.rspQueue ++ [(convertPixel sy su sv).setWidth 64] } := by
  rw [exec_convert_of_samples (translate_of_readsPlanes hr) (readPlanes_of_bytes hy hu hv), respond, responseWord_ok]

/-- The response of a CONVERT is settled by the error of its checks and by what its reads come to, so two states that
agree in these answer alike. -/
theorem exec_convert_same_response {s s' t : State} {x y : Coord} (h : exec (.convert x y) s = .next t)
    (herror : ∀ e, translate s.cfg x y = .error e → translate s'.cfg x y = .error e)
    (hreads : s.cfg.readsPlanes x y → s'.cfg.readsPlanes x y ∧
      readPlanes s'.toSourceMemory (planeAddrs s'.cfg x y) = readPlanes s.toSourceMemory (planeAddrs s.cfg x y)) :
    ∃ (t' : State) (r : RspWord), exec (.convert x y) s' = .next t' ∧
      t.rspQueue = s.rspQueue ++ [r] ∧ t'.rspQueue = s'.rspQueue ++ [r] := by
  by_cases hr : s.cfg.readsPlanes x y
  · obtain ⟨hr', hplanes⟩ := hreads hr
    have ht' := translate_of_readsPlanes hr'
    rcases exec_convert_next_cases h with ⟨e, he, -⟩ | ⟨-, ⟨hp, rfl⟩ | ⟨sy, su, sv, hp, rfl⟩⟩
    · cases he.symm.trans (translate_of_readsPlanes hr)
    · exact ⟨_, _, exec_convert_of_busError ht' (hplanes.trans hp), raise_rspQueue .bus s, raise_rspQueue .bus s'⟩
    · exact ⟨_, _, exec_convert_of_samples ht' (hplanes.trans hp), respond_rspQueue .ok _ s,
        respond_rspQueue .ok _ s'⟩
  · obtain ⟨e, he⟩ := translate_of_refused hr
    cases (exec_convert_of_translate_eq_error he).symm.trans h
    exact ⟨_, _, exec_convert_of_translate_eq_error (herror e he), raise_rspQueue e s, raise_rspQueue e s'⟩

/-! ### The frame by its last pixel -/

/-- The last column of the frame (R149). -/
def RegFile.lastX (f : RegFile) : Coord := BitVec.ofNat 16 ((f.width.extractLsb' 0 16).toNat - 1)

/-- The last row of the frame (R149). -/
def RegFile.lastY (f : RegFile) : Coord := BitVec.ofNat 16 ((f.height.extractLsb' 0 16).toNat - 1)

theorem RegFile.lastX_toNat (f : RegFile) : f.lastX.toNat = (f.width.extractLsb' 0 16).toNat - 1 := by
  rw [RegFile.lastX, BitVec.toNat_ofNat]
  omega

theorem RegFile.lastY_toNat (f : RegFile) : f.lastY.toNat = (f.height.extractLsb' 0 16).toNat - 1 := by
  rw [RegFile.lastY, BitVec.toNat_ofNat]
  omega

theorem RegFile.inDomain_last {f : RegFile} (hc : f.configOk) : f.inDomain f.lastX f.lastY := by
  obtain ⟨hw, hh, -⟩ := hc
  rw [RegFile.inDomain, RegFile.lastX_toNat, RegFile.lastY_toNat]
  omega

theorem RegFile.inDomain.le_last {f : RegFile} {x y : Coord} (hd : f.inDomain x y) :
    x.toNat ≤ f.lastX.toNat ∧ y.toNat ≤ f.lastY.toNat := by
  obtain ⟨hx, hy⟩ := hd
  rw [RegFile.lastX_toNat, RegFile.lastY_toNat]
  omega

theorem lumaIndex_mono (f : RegFile) {x y x' y' : Coord} (hx : x.toNat ≤ x'.toNat) (hy : y.toNat ≤ y'.toNat) :
    lumaIndex f x y ≤ lumaIndex f x' y' :=
  Nat.add_le_add (Nat.mul_le_mul_right _ hy) hx

theorem chromaIndex_mono (f : RegFile) {x y x' y' : Coord} (hx : x.toNat ≤ x'.toNat) (hy : y.toNat ≤ y'.toNat) :
    chromaIndex f x y ≤ chromaIndex f x' y' :=
  Nat.add_le_add (Nat.mul_le_mul_left _ (Nat.div_le_div_right hx)) (Nat.mul_le_mul_left _ (Nat.div_le_div_right hy))

/-- A pixel before one whose three bytes are in bounds has its own in bounds. -/
theorem RegFile.inBuffers_of_le {f : RegFile} {x y x' y' : Coord} (hx : x.toNat ≤ x'.toNat) (hy : y.toNat ≤ y'.toNat)
    (hb : f.inBuffers x' y') : f.inBuffers x y := by
  have hluma := lumaIndex_mono f hx hy
  have hchroma := chromaIndex_mono f hx hy
  unfold RegFile.inBuffers at hb ⊢
  omega

/-- The extents of R149 are the bounds of R146 at the last pixel. -/
theorem RegFile.frameFits_iff_last {f : RegFile} (hc : f.configOk) : f.frameFits ↔ f.inBuffers f.lastX f.lastY := by
  obtain ⟨hw, -, -⟩ := hc
  simp only [RegFile.frameFits, RegFile.inBuffers, lumaIndex, chromaIndex, RegFile.lastX_toNat, RegFile.lastY_toNat]
  omega

/-- In a frame that fits no pixel is refused (R149). -/
theorem RegFile.readsPlanes_of_frameFits {f : RegFile} {x y : Coord} (hc : f.configOk) (hf : f.frameFits)
    (hd : f.inDomain x y) : f.readsPlanes x y :=
  have hle := hd.le_last
  ⟨hc, hd, RegFile.inBuffers_of_le hle.1 hle.2 ((RegFile.frameFits_iff_last hc).mp hf)⟩

/-! ### The statements -/

/-- Settles O17: with a good configuration the coordinate check alone decides. -/
theorem convertRefusesBadCoordinates : Obligations.ConvertRefusesBadCoordinates := by
  intro s x y hc hout
  have hd : ¬ s.cfg.inDomain x y := by
    unfold RegFile.inDomain
    omega
  rw [exec_convert_of_translate_eq_error (translate_of_not_inDomain hc hd), raise_coord_eq]

/-- Settles O19: three answers with a `BusError` among them come to a `BusError`. -/
theorem convertReportsBusError : Obligations.ConvertReportsBusError := by
  intro s x y hr hy hu hv hbus
  have hanswered : ¬ SomeUnanswered s.toSourceMemory (planeAddrs s.cfg x y) := not_or.mpr ⟨hy, not_or.mpr ⟨hu, hv⟩⟩
  rw [exec_convert_of_busError (translate_of_readsPlanes hr) (readPlanes_of_someBusError hanswered hbus), raise_bus_eq]

/-- Settles O20: the response waits for all three reads. -/
theorem convertHangsOnUnansweredRead : Obligations.ConvertHangsOnUnansweredRead :=
  fun _ _ _ hr hnever => exec_convert_of_someUnanswered hr hnever

/-- Settles O21: the two indices written out are those of the addresses read. -/
theorem convertAnswersThePixel : Obligations.ConvertAnswersThePixel :=
  fun _ _ _ _ _ _ hr hy hu hv => exec_convert_of_bytes hr hy hu hv

/-- Settles O22: a failed check sees the registers alone, and its error leaves the memory as it stands. -/
theorem refusedConvertReadsNothing : Obligations.RefusedConvertReadsNothing := by
  intro s x y m a hr
  obtain ⟨e, he⟩ := translate_of_refused hr
  exact ⟨raise e s, exec_convert_of_translate_eq_error he,
    exec_convert_of_translate_eq_error (s := { s with mem := m, unanswered := a }) he⟩

/-- Settles O28: the halves of both coordinates are those of the block. -/
theorem blockSharesChroma : Obligations.BlockSharesChroma := by
  intro f i j x y hx hy
  have hi : x.toNat / 2 = i := by omega
  have hj : y.toNat / 2 = j := by omega
  simp only [planeAddrs, chromaIndex, hi, hj, and_self]

/-- Settles O29: the last pixel is one of the frame, and both indices are largest there. -/
theorem frameFitsIffEveryPixelInBounds : Obligations.FrameFitsIffEveryPixelInBounds := by
  refine fun f hc => ⟨fun hall => ?_, fun hf x y hd => ?_⟩
  · exact (RegFile.frameFits_iff_last hc).mpr (hall _ _ (RegFile.inDomain_last hc))
  · exact (RegFile.readsPlanes_of_frameFits hc hf hd).2.2

/-- Settles O30: the three addresses of a pixel are inside the planes, where every read gives a byte. -/
theorem readyFrameConvertsEveryPixel : Obligations.ReadyFrameConvertsEveryPixel := by
  intro s hc hf hy hu hv x y hd
  have hr := RegFile.readsPlanes_of_frameFits hc hf hd
  obtain ⟨⟨hysize, hyaddr⟩, ⟨husize, huaddr⟩, hvsize, hvaddr⟩ := hr.2.2
  obtain ⟨sy, hsy⟩ := hy _ hysize hyaddr
  obtain ⟨su, hsu⟩ := hu _ husize huaddr
  obtain ⟨sv, hsv⟩ := hv _ hvsize hvaddr
  exact ⟨_, exec_convert_of_bytes hr hsy hsu hsv⟩

/-- Settles O31: a coordinate is in both frames or in neither; outside both answer `ERR_COORD`, and inside the reads of
both are answered alike. -/
theorem layoutsWithSameSamplesAgree : Obligations.LayoutsWithSameSamplesAgree := by
  intro s s' hc hc' hf hf' hw hh hluma hchroma x y t h
  have hdomain : s'.cfg.inDomain x y ↔ s.cfg.inDomain x y := by rw [RegFile.inDomain, RegFile.inDomain, hw, hh]
  refine exec_convert_same_response h (fun e he => ?_) fun ⟨_, hd, _⟩ =>
    ⟨RegFile.readsPlanes_of_frameFits hc' hf' (hdomain.mpr hd), ?_⟩
  · have hd : ¬ s.cfg.inDomain x y := fun hd => by
      cases he.symm.trans (translate_of_readsPlanes (RegFile.readsPlanes_of_frameFits hc hf hd))
    rw [← he, translate_of_not_inDomain hc hd, translate_of_not_inDomain hc' (mt hdomain.mp hd)]
  · obtain ⟨hx, hy⟩ := hd
    obtain ⟨hu, hv⟩ := hchroma (x.toNat / 2) (y.toNat / 2) (by omega) (by omega)
    simp only [Nat.add_assoc] at hu hv
    simp only [readPlanes, planeAddrs, lumaIndex, chromaIndex, hluma x y ⟨hx, hy⟩, hu, hv]

end Sys2Proof.Machine

/-! PROOFS. The sums of some of a channel's summands (42_csc.md R176) and the saturator by cases (R177). -/

namespace Sys2Proof.Machine

/-- A summand that may be left out of a sum lies between 0 and its value. -/
theorem ite_nat_range (b : Bool) (k : Nat) :
    0 ≤ (if b then (k : Int) else 0) ∧ (if b then (k : Int) else 0) ≤ k := by
  split_ifs <;> omega

/-- Settles O36: each summand that is there is at most its largest value, so the added ones reach 706 at most and the
subtracted ones 272. -/
theorem partialSumsFit : Obligations.PartialSumsFit := by
  intro y u v p q r m n part sumR sumG sumB
  have hy := ite_nat_range p y.toNat
  have hrv := ite_nat_range q (tRV v)
  have hgu := ite_nat_range q (tGU u)
  have hgv := ite_nat_range m (tGV v)
  have hbu := ite_nat_range q (tBU u)
  have hr := ite_nat_range r 179
  have hg := ite_nat_range r 44
  have hg' := ite_nat_range n 91
  have hb := ite_nat_range r 227
  have := tRV_le v
  have := tGU_le u
  have := tGV_le v
  have := tBU_le u
  simp only [sumR, sumG, sumB, part]
  omega

/-- Settles O37: the three cases of the clamp are those of a minimum and a maximum. -/
theorem saturatorClamps : Obligations.SaturatorClamps := by
  intro v
  rw [satU8_toNat]
  split_ifs <;> omega

end Sys2Proof.Machine

/-! PROOFS. A step that waits and a step that answers, what every move of the system leaves as it was, and that the
moves keep the invariant (10_state.md R50, 70_reset_and_hazards.md R237, R241); then the statements on steps and moves. -/

namespace Sys2Proof.Machine

/-! ### The step -/

/-- A block with no command, or with no room for a response, waits (R217, R237). -/
theorem step_of_waiting {s : State} (h : s.cmdQueue = [] ∨ Config.rspDepth ≤ s.rspQueue.length) : step s = .next s := by
  simp only [step, nextCommand_eq_none.mpr h]

/-- A step either waits or answers the oldest command. -/
theorem step_next_waits_or_answers {s t : State} (h : step s = .next t) :
    t = s ∨ ∃ c rest, s.cmdQueue = c :: rest ∧ s.rspQueue.length < Config.rspDepth ∧
      Answered { s with cmdQueue := rest } t := by
  rcases step_next_cases h with ⟨-, hts⟩ | ⟨c, rest, hq, hr, -⟩
  · exact .inl hts
  · exact .inr ⟨c, rest, hq, hr, step_next_answered hq hr h⟩

/-- A step that takes a command answers it, or hangs in a CONVERT (R238). -/
theorem step_next_or_hang {s : State} {c : CmdWord} {rest : List CmdWord} (hq : s.cmdQueue = c :: rest)
    (hr : s.rspQueue.length < Config.rspDepth) :
    (∃ t, step s = .next t) ∨
    (step s = .fault .readNeverAnswered ∧ ∃ x y, decode c = .ok (.convert x y)) := by
  cases hd : decode c with
  | error e => exact .inl ⟨_, step_of_decode_eq_error hq hr hd⟩
  | ok i =>
    rw [step_of_decode_eq_ok hq hr hd]
    rcases exec_next_or_hang i { s with cmdQueue := rest } with ht | ⟨hf, x, y, rfl, -⟩
    · exact .inl ht
    · exact .inr ⟨hf, x, y, rfl⟩

theorem Answered.toSourceMemory_eq {s t : State} (h : Answered s t) : t.toSourceMemory = s.toSourceMemory := by
  rcases h with ⟨e, rfl⟩ | ⟨f, d, -, rfl⟩ <;> rfl

/-- The response an answer appends has the form of R97. -/
theorem Answered.exists_legalResponse {s t : State} (h : Answered s t) :
    ∃ r, t.rspQueue = s.rspQueue ++ [r] ∧ legalResponse r := by
  rcases h with ⟨e, rfl⟩ | ⟨f, d, -, rfl⟩
  · exact ⟨_, raise_rspQueue e s, legalResponse_err e⟩
  · exact ⟨_, respond_rspQueue .ok d _, legalResponse_ok d⟩

theorem Answered.faultStatus_eq_of_ok {s t : State} {r : RspWord} (h : Answered s t)
    (ht : t.rspQueue = s.rspQueue ++ [r]) (hr : rspStatus r = 0) : t.cfg.faultStatus = s.cfg.faultStatus := by
  rcases h with ⟨e, rfl⟩ | ⟨f, d, hf, rfl⟩
  · have hcode : rspStatus r = e.code := rspStatus_of_append_eq ht
    exact absurd (hcode.symm.trans hr) e.code_ne_zero
  · exact hf

/-- No step stores a byte (R64). -/
theorem step_next_toSourceMemory {s t : State} (h : step s = .next t) : t.toSourceMemory = s.toSourceMemory := by
  rcases step_next_waits_or_answers h with rfl | ⟨c, rest, -, -, ha⟩
  · rfl
  · exact ha.toSourceMemory_eq

theorem Block.step_of_step_next {s t : State} (h : Machine.step s = .next t) :
    Block.step s.toSourceMemory s.toBlock = .next t.toBlock := by
  have hstep : Machine.step { toBlock := s.toBlock, toSourceMemory := s.toSourceMemory } = .next t := h
  simp only [Block.step, hstep]

/-- The block sees its memory through `MemRead` alone (R30). -/
theorem Block.step_congr {m m' : SourceMemory} (hm : ∀ a, m'.memRead a = m.memRead a) (b : Block) :
    Block.step m' b = Block.step m b := by
  have hstep : Machine.step { toBlock := b, toSourceMemory := m' } =
      withMemory m' (Machine.step { toBlock := b, toSourceMemory := m }) :=
    step_withMemory { toBlock := b, toSourceMemory := m } m' fun a _ => hm a
  simp only [Block.step, hstep]
  cases Machine.step { toBlock := b, toSourceMemory := m } <;> rfl

/-! ### The channels and the moves -/

theorem accept_of_full {s : State} (h : Config.reqDepth ≤ s.cmdQueue.length) (w : CmdWord) : accept w s = none := by
  simp [accept, cmdFull, h]

theorem accept_of_room {s : State} (h : s.cmdQueue.length < Config.reqDepth) (w : CmdWord) :
    accept w s = some { s with cmdQueue := s.cmdQueue ++ [w] } := by
  simp [accept, cmdFull, h]

theorem take_of_empty {s : State} (h : s.rspQueue = []) : take s = none := by
  simp only [take, h]

theorem take_of_cons {s : State} {r : RspWord} {rest : List RspWord} (h : s.rspQueue = r :: rest) :
    take s = some (r, { s with rspQueue := rest }) := by
  simp only [take, h]

/-- Everything a move can do when it is made (R15, R53, R237, R241). -/
theorem Event.apply_next_cases {e : Event} {s t : State} (h : e.apply s = .next t) :
    t = s ∨
    (∃ w, e = .offer w ∧ s.cmdQueue.length < Config.reqDepth ∧ t = { s with cmdQueue := s.cmdQueue ++ [w] }) ∨
    (e = .execute ∧ step s = .next t) ∨
    (∃ r rest, e = .take ∧ s.rspQueue = r :: rest ∧ t = { s with rspQueue := rest }) ∨
    (e = .reset ∧ t = applyReset s) ∨
    ∃ a r, e = .memory a r ∧ t = setReply a r s := by
  cases e with
  | offer w =>
    cases h
    by_cases hroom : s.cmdQueue.length < Config.reqDepth
    · exact .inr (.inl ⟨w, rfl, hroom, by rw [accept_of_room hroom, Option.getD_some]⟩)
    · exact .inl (by rw [accept_of_full (by omega), Option.getD_none])
  | execute => exact .inr (.inr (.inl ⟨rfl, h⟩))
  | take =>
    cases h
    cases hq : s.rspQueue with
    | nil => exact .inl (by rw [take_of_empty hq, Option.map_none, Option.getD_none])
    | cons r rest =>
      exact .inr (.inr (.inr (.inl ⟨r, rest, rfl, rfl, by rw [take_of_cons hq, Option.map_some, Option.getD_some]⟩)))
  | reset =>
    cases h
    exact .inr (.inr (.inr (.inr (.inl ⟨rfl, rfl⟩))))
  | memory a r =>
    simp only [Event.apply, hostMemory] at h
    split at h
    · cases h
    · cases h
      exact .inr (.inr (.inr (.inr (.inr ⟨a, r, rfl, rfl⟩))))

/-! ### The invariant -/

theorem State.Inv.withCommands {s : State} (h : s.Inv) {q : List CmdWord} (hq : q.length ≤ Config.reqDepth) :
    ({ s with cmdQueue := q } : State).Inv :=
  { h with commandsFit := hq }

theorem State.Inv.withSomeResponses {s : State} (h : s.Inv) {q : List RspWord} (hq : q.Sublist s.rspQueue) :
    ({ s with rspQueue := q } : State).Inv :=
  { h with
    responsesLegal := fun r hr => h.responsesLegal r (hq.subset hr)
    errorsRecorded := fun r hr => h.errorsRecorded r (hq.subset hr)
    responsesFit := hq.length_le.trans h.responsesFit }

theorem State.Inv.setReply {s : State} (h : s.Inv) (a : Word) (r : MemReply) : (setReply a r s).Inv where
  widthReserved := by simpa using h.widthReserved
  heightReserved := by simpa using h.heightReserved
  faultReserved := by simpa using h.faultReserved
  responsesLegal := by simpa using h.responsesLegal
  errorsRecorded := by simpa using h.errorsRecorded
  memoryWf := setReply_wf a r s h.memoryWf
  commandsFit := by simpa using h.commandsFit
  responsesFit := by simpa using h.responsesFit

/-- Reset settles all of the invariant but the form of the memory, which it does not touch (R30, R230). -/
theorem inv_applyReset {s : State} (h : Memory.wf s.mem s.unanswered) : (applyReset s).Inv where
  widthReserved := by rw [applyReset_cfg]; decide
  heightReserved := by rw [applyReset_cfg]; decide
  faultReserved := by rw [applyReset_cfg]; decide
  responsesLegal := fun _ hr => absurd hr List.not_mem_nil
  errorsRecorded := fun _ hr => absurd hr List.not_mem_nil
  memoryWf := h
  commandsFit := Nat.zero_le _
  responsesFit := Nat.zero_le _

/-- An error sets no reserved bit (R46). -/
theorem Answered.faultReserved {s t : State} (h : Answered s t) (hs : s.cfg.faultStatus &&& 0xFFFFFF81 = 0) :
    t.cfg.faultStatus &&& 0xFFFFFF81 = 0 := by
  rcases h with ⟨e, rfl⟩ | ⟨f, d, hf, rfl⟩
  · rw [raise_cfg, RegFile.setSticky_faultStatus, BitVec.and_or_distrib_right, hs, e.stickyFlag_reserved]
    rfl
  · rw [respond_cfg, hf, hs]

/-- A step leaves the reserved bits of WIDTH and HEIGHT 0 (R35, R36). -/
theorem step_next_sizeReserved {s t : State} (h : step s = .next t) :
    (s.cfg.width.extractLsb' 16 16 = 0 → t.cfg.width.extractLsb' 16 16 = 0) ∧
    (s.cfg.height.extractLsb' 16 16 = 0 → t.cfg.height.extractLsb' 16 16 = 0) := by
  rcases step_next_cases h with ⟨-, rfl⟩ | ⟨c, rest, -, -, ⟨e, rfl⟩ | ⟨f, d, rfl, rfl | ⟨reg, data, -, hw⟩⟩⟩
  · exact ⟨id, id⟩
  · exact ⟨id, id⟩
  · exact ⟨id, id⟩
  · exact (RegFile.write_keeps_reserved hw).2

/-- A command answered where there was room keeps the invariant: its response is legal, and is recorded if it is an
error. -/
theorem State.Inv.of_answered {s t : State} (h : s.Inv) (hroom : s.rspQueue.length < Config.rspDepth)
    (ha : Answered s t) (hwidth : t.cfg.width.extractLsb' 16 16 = 0) (hheight : t.cfg.height.extractLsb' 16 16 = 0) :
    t.Inv := by
  obtain ⟨r, hr, hlegal⟩ := ha.exists_legalResponse
  have hmem : ∀ q ∈ t.rspQueue, q ∈ s.rspQueue ∨ q = r := by simp [hr]
  refine ⟨hwidth, hheight, ha.faultReserved h.faultReserved, fun q hq => ?_, fun q hq e he => ?_, ?_, ?_, ?_⟩
  · rcases hmem q hq with hq | rfl
    · exact h.responsesLegal q hq
    · exact hlegal
  · rw [ha.sticky_iff hr e]
    rcases hmem q hq with hq | rfl
    · exact .inl (h.errorsRecorded q hq e he)
    · exact .inr he
  · rw [ha.toSourceMemory_eq]
    exact h.memoryWf
  · rw [ha.cmdQueue_eq]
    exact h.commandsFit
  · rw [hr, List.length_append, List.length_singleton]
    exact hroom

theorem step_next_inv {s t : State} (hinv : s.Inv) (h : step s = .next t) : t.Inv := by
  obtain ⟨hwidth, hheight⟩ := step_next_sizeReserved h
  rcases step_next_waits_or_answers h with rfl | ⟨c, rest, hq, hr, ha⟩
  · exact hinv
  · have hfit : rest.length ≤ Config.reqDepth := by
      have := hinv.commandsFit
      rw [hq, List.length_cons] at this
      omega
    exact (hinv.withCommands hfit).of_answered hr ha (hwidth hinv.widthReserved) (hheight hinv.heightReserved)

/-! ### The statements -/

/-- Settles O51: a step waits, or takes a command and answers it where there is room. -/
theorem stepKeepsInv : Obligations.StepKeepsInv := fun _ _ => step_next_inv

/-- Settles O52: an offer that is accepted had room, a take shortens its queue, and a write keeps the memory's form. -/
theorem eventsKeepInv : Obligations.EventsKeepInv := by
  intro e s t hinv h
  rcases Event.apply_next_cases h with
    rfl | ⟨w, -, hroom, rfl⟩ | ⟨-, hstep⟩ | ⟨r, rest, -, hq, rfl⟩ | ⟨-, rfl⟩ | ⟨a, r, -, rfl⟩
  · exact hinv
  · exact hinv.withCommands (by simpa using hroom)
  · exact step_next_inv hinv hstep
  · exact hinv.withSomeResponses (hq ▸ List.sublist_cons_self r rest)
  · exact inv_applyReset hinv.memoryWf
  · exact hinv.setReply a r

/-- Settles O50: the reset state is the reset of any state whose memory lists nothing. -/
theorem resetMeetsInv : Obligations.ResetMeetsInv := inv_applyReset reset_memory_wf

/-- Settles O41: a step decodes the head of the queue, where there is one and room for its response. -/
theorem stepRunsDecodedInstruction : Obligations.StepRunsDecodedInstruction :=
  ⟨fun _ _ _ _ => step_of_decode_eq_ok, fun _ => step_of_waiting⟩

/-- Settles O42: an answer leaves the memory as it was, and the next one reads it by its replies alone. -/
theorem stepWritesNoMemory : Obligations.StepWritesNoMemory := by
  refine ⟨fun s t h => ?_, fun m m' b hm => Block.step_congr hm b⟩
  have hmem := step_next_toSourceMemory h
  exact ⟨congrArg SourceMemory.mem hmem, congrArg SourceMemory.unanswered hmem, fun a => by rw [hmem],
    Block.step_of_step_next h⟩

/-- Settles O43: each move that is made either leaves the queues or moves the one word its kind moves. -/
theorem backPressureDropsNothing : Obligations.BackPressureDropsNothing := by
  refine ⟨fun s hfull => step_of_waiting (.inr hfull), fun s w hfull => ⟨accept_of_full hfull w, ?_⟩,
    fun e s t hreset h => ?_⟩
  · rw [Event.apply, accept_of_full hfull, Option.getD_none]
  · rcases Event.apply_next_cases h with
      rfl | ⟨w, he, -, rfl⟩ | ⟨he, hstep⟩ | ⟨r, rest, he, hq, rfl⟩ | ⟨he, -⟩ | ⟨a, r, -, rfl⟩
    · exact .inl ⟨rfl, rfl⟩
    · exact .inr (.inl ⟨w, he, rfl, rfl⟩)
    · rcases step_next_waits_or_answers hstep with rfl | ⟨c, rest, hq, -, ha⟩
      · exact .inl ⟨rfl, rfl⟩
      · obtain ⟨r, hr⟩ := ha.exists_rspQueue_eq
        exact .inr (.inr (.inl ⟨he, c, r, by rw [hq, ha.cmdQueue_eq], hr⟩))
    · exact .inr (.inr (.inr ⟨he, rfl, r, hq⟩))
    · exact absurd he hreset
    · exact .inl ⟨setReply_cmdQueue a r s, setReply_rspQueue a r s⟩

/-- Settles O44: only a CONVERT past its checks can meet a read that is never answered. -/
theorem everyCommandIsAnswered : Obligations.EveryCommandIsAnswered := by
  intro i s
  rcases exec_next_or_hang i s with ⟨t, ht⟩ | ⟨hf, x, y, hi, hr, hnever⟩
  · obtain ⟨r, hr, hlegal⟩ := (exec_next_answered ht).exists_legalResponse
    exact .inl ⟨t, r, ht, hr, hlegal⟩
  · simp only [memRead_eq_never] at hnever
    exact .inr ⟨hf, x, y, hi, hr, hnever⟩

/-- Settles O45: a step with a command and room does not wait, so it answers. -/
theorem oneResponsePerCommand : Obligations.OneResponsePerCommand := by
  intro s t hne hr h
  obtain ⟨c, rest, hq⟩ := List.exists_cons_of_ne_nil hne
  have ha := step_next_answered hq hr h
  exact ⟨by rw [ha.cmdQueue_eq, hq, List.tail_cons], ha.exists_legalResponse⟩

/-- Settles O47: an answer changes FAULT_STATUS by an error alone, whose code is not that of `OK`. -/
theorem okLeavesFaultStatus : Obligations.OkLeavesFaultStatus :=
  fun _ _ _ _ h ht hok => (exec_next_answered h).faultStatus_eq_of_ok ht hok

/-- Settles O53: each channel by whether its queue has what the transfer needs. -/
theorem channelsKeepOrder : Obligations.ChannelsKeepOrder :=
  fun _ w => ⟨fun hroom => accept_of_room hroom w, take_of_empty, fun _ _ => take_of_cons⟩

end Sys2Proof.Machine

/-! PROOFS. What a command does whatever stands before and behind it in the queues, so that a run of queued commands is
the run of them one by one (60_exceptions.md R213); then the statements on serving and on queued commands. -/

namespace Sys2Proof.Machine

/-! ### A command among others -/

/-- The outcome of a command from empty queues, as it is with the commands `cs` behind it and the responses `q` before
its own. -/
def withQueues (cs : List CmdWord) (q : List RspWord) :
    Host.Outcome State Fault Refusal → Host.Outcome State Fault Refusal
  | .next t => .next { t with cmdQueue := cs, rspQueue := q ++ t.rspQueue }
  | .fault r => .fault r
  | .refused r => .refused r

/-- No command looks at the queues (R122, R213). -/
theorem exec_withQueues (i : Instr) (s : State) (cs : List CmdWord) (q : List RspWord) :
    exec i { s with cmdQueue := cs, rspQueue := q } =
      withQueues cs q (exec i { s with cmdQueue := [], rspQueue := [] }) := by
  cases i with
  | convert x y =>
    simp only [exec, execConvert]
    rcases translate s.cfg x y with e | a
    · rfl
    · simp only
      cases readPlanes s.toSourceMemory a <;> rfl
  | cfgw reg data =>
    simp only [exec, execCfgw]
    cases s.cfg.write reg data <;> rfl
  | cfgr reg =>
    simp only [exec, execCfgr]
    cases s.cfg.read reg <;> rfl

/-- The state with `c` as the one command of the block and every response taken. -/
def State.withOnly (s : State) (c : CmdWord) : State := { s with cmdQueue := [c], rspQueue := [] }

/-- A step with room does with its oldest command what it does with that command alone. -/
theorem step_withQueues (c : CmdWord) (s : State) (cs : List CmdWord) {q : List RspWord}
    (hq : q.length < Config.rspDepth) :
    step { s with cmdQueue := c :: cs, rspQueue := q } =
      withQueues cs q (step (s.withOnly c)) := by
  rw [step_of_next (s := { s with cmdQueue := c :: cs, rspQueue := q }) rfl hq,
    step_of_next (s := s.withOnly c) rfl Config.rspDepth_pos]
  cases decode c with
  | error e => rfl
  | ok i => exact exec_withQueues i s cs q

/-- One command alone: it is answered and leaves the command queue empty, or it is a CONVERT that hangs. -/
theorem step_single_cases (c : CmdWord) (s : State) :
    (∃ t r, step (s.withOnly c) = .next t ∧ t.cmdQueue = [] ∧ t.rspQueue = [r] ∧
      legalResponse r) ∨
    (step (s.withOnly c) = .fault .readNeverAnswered ∧
      ∃ x y, decode c = .ok (.convert x y)) := by
  have hroom : ([] : List RspWord).length < Config.rspDepth := Config.rspDepth_pos
  rcases step_next_or_hang (s := s.withOnly c) rfl hroom with ⟨t, ht⟩ | hhang
  · have ha := step_next_answered (s := s.withOnly c) rfl hroom ht
    obtain ⟨r, hr, hlegal⟩ := ha.exists_legalResponse
    exact .inl ⟨t, r, ht, ha.cmdQueue_eq, hr, hlegal⟩
  · exact .inr hhang

/-! ### Serving -/

theorem accept_withOnly {s : State} (hs : s.idle) (c : CmdWord) : accept c s = some (s.withOnly c) := by
  rw [accept_of_idle hs, hs.2, State.withOnly]

theorem serve_of_step_next {c : CmdWord} {s t : State} {r : RspWord} (hs : s.idle)
    (h : step (s.withOnly c) = .next t) (hr : t.rspQueue = [r]) :
    serve c s = .next (r, { t with rspQueue := [] }) := by
  simp only [serve, accept_withOnly hs, h, take_of_cons hr]

theorem serve_of_step_fault {c : CmdWord} {s : State} {f : Fault} (hs : s.idle)
    (h : step (s.withOnly c) = .fault f) : serve c s = .fault f := by
  simp only [serve, accept_withOnly hs, h]

/-- A word that is served is one step of the block, with its response untaken. -/
theorem step_of_serve_next {c : CmdWord} {s s' : State} {r : RspWord} (hs : s.idle)
    (h : serve c s = .next (r, s')) :
    s'.idle ∧ step (s.withOnly c) = .next { s' with rspQueue := [r] } := by
  rcases step_single_cases c s with ⟨t, q, ht, hcmd, hrsp, -⟩ | ⟨hf, -⟩
  · cases (serve_of_step_next hs ht hrsp).symm.trans h
    exact ⟨⟨hcmd, rfl⟩, by rw [ht, ← hrsp]⟩
  · cases (serve_of_step_fault hs hf).symm.trans h

theorem run_succ_of_step_next {s t : State} (h : step s = .next t) (n : Nat) :
    Host.Core.run core (n + 1) s = Host.Core.run core n t := by
  have hstep : core.step s = .next t := h
  simp only [Host.Core.run, hstep]

/-- Words queued behind responses untaken leave the responses of serving them behind those, as long as there is room
for all (R213). -/
theorem run_of_runProgram (ws : List CmdWord) : ∀ (q : List RspWord) (s t : State) (rs : List RspWord), s.idle →
    q.length + ws.length ≤ Config.rspDepth → runProgram ws s = .next (rs, t) →
    Host.Core.run core ws.length { s with cmdQueue := ws, rspQueue := q } = .next { t with rspQueue := q ++ rs } := by
  induction ws with
  | nil =>
    intro q s t rs hs _ h
    cases h
    have hnil : ({ s with cmdQueue := [], rspQueue := q } : State) = { s with rspQueue := q ++ [] } := by
      rw [List.append_nil, hs.1]
    exact congrArg Host.Outcome.next hnil
  | cons w ws ih =>
    intro q s t rs hs hfit h
    rw [List.length_cons] at hfit
    obtain ⟨r, s', rs', hserve, hrun, rfl⟩ := runProgram_cons_next h
    obtain ⟨hidle, hsingle⟩ := step_of_serve_next hs hserve
    have hstep := step_withQueues w s ws (q := q) (by omega)
    rw [hsingle, withQueues] at hstep
    have hrest := ih (q ++ [r]) s' t rs' hidle (by rw [List.length_append, List.length_singleton]; omega) hrun
    rw [List.length_cons, run_succ_of_step_next hstep]
    rw [List.append_assoc, List.singleton_append] at hrest
    exact hrest

/-! ### The statements -/

/-- Settles O54: the one command of the block is answered and its response taken, or it hangs. -/
theorem serveLeavesBlockIdle : Obligations.ServeLeavesBlockIdle := by
  intro w s hs
  rcases step_single_cases w s with ⟨t, r, ht, hcmd, hrsp, hlegal⟩ | ⟨hf, hconv⟩
  · exact .inl ⟨r, _, serve_of_step_next hs ht hrsp, ⟨hcmd, rfl⟩, hlegal⟩
  · exact .inr ⟨serve_of_step_fault hs hf, hconv⟩

/-- Settles O55: the run of the queued words from an empty response queue. -/
theorem queuedRunEqualsServing : Obligations.QueuedRunEqualsServing := by
  intro ws s t rs hs hfit h
  have hrun := run_of_runProgram ws [] s t rs hs (by rwa [List.length_nil, Nat.zero_add]) h
  rw [← hs.2] at hrun
  rw [hrun, hs.2, List.nil_append]

/-- Settles O57: with either list behind it the oldest command does what it does alone. -/
theorem laterCommandsChangeNoEarlierResponse : Obligations.LaterCommandsChangeNoEarlierResponse := by
  intro s c rest rest' hroom
  have hrest := step_withQueues c s rest hroom
  have hrest' := step_withQueues c s rest' hroom
  rcases step_single_cases c s with ⟨t, r, ht, -, hrsp, -⟩ | ⟨hf, -⟩
  · rw [ht, withQueues] at hrest hrest'
    exact .inl ⟨_, r, hrest, rfl, congrArg (s.rspQueue ++ ·) hrsp, hrest'⟩
  · rw [hf, withQueues] at hrest hrest'
    exact .inr ⟨hrest, hrest'⟩

end Sys2Proof.Machine

/-! PROOFS. What a changed memory answers (20_memory.md R63), which addresses a queue of commands reads, and a sequence
of moves beside the memory it started from (R72, 70_reset_and_hazards.md R235); then the statements on the memory. -/

namespace Sys2Proof.Machine

/-! ### Reading after a change -/

/-- A changed address answers what it was made to answer, every other one as before (R72 items 3 and 5). -/
theorem memRead_setReply (a : Word) (r : MemReply) {s : State} (h : Memory.wf s.mem s.unanswered) (k : Nat) :
    (setReply a r s).memRead k = if k = a.toNat then r else s.memRead k := by
  obtain ⟨hrising, -, hunanswered, -, -⟩ := h
  have hlookup (v : Option Byte) := Memory.lookup_put a.toNat k v s.mem hrising
  have hremove : k ∈ Addrs.remove a.toNat s.unanswered ↔ k ≠ a.toNat ∧ k ∈ s.unanswered :=
    Addrs.mem_remove hunanswered
  have hinsert : k ∈ Addrs.insert a.toNat s.unanswered ↔ k = a.toNat ∨ k ∈ s.unanswered := Addrs.mem_insert
  by_cases hk : k = a.toNat
  · subst hk
    cases r <;> simp [setReply, SourceMemory.memRead, hlookup, hremove, hinsert]
  · cases r <;> simp [setReply, SourceMemory.memRead, hlookup, hremove, hinsert, hk]

/-! ### The addresses a queue reads -/

/-- The registers a queued word leaves to the commands behind it, its sticky bit aside (R122). -/
def cfgAfter (f : RegFile) (w : CmdWord) : RegFile :=
  match decode w with
  | .ok (.cfgw reg data) => (f.write reg data).getD f
  | _ => f

theorem queuedReads_cons_cfgAfter (f : RegFile) (w : CmdWord) (ws : List CmdWord) :
    queuedReads f (w :: ws) = queuedReads f [w] ++ queuedReads (cfgAfter f w) ws :=
  queuedReads_cons f w ws

/-- One word reads an address where it is the word of a CONVERT that does. -/
theorem mem_queuedReads_singleton {f : RegFile} {w : CmdWord} {a : Nat} :
    a ∈ queuedReads f [w] ↔ ∃ x y, w = encode (.convert x y) ∧ a ∈ convertReads f x y := by
  simp only [← decode_eq_ok_iff]
  cases hd : decode w with
  | error e => simp [queuedReads, hd]
  | ok i => cases i <;> simp [queuedReads, hd]

/-- A queue reads an address where some CONVERT of it does, under the registers the words before it leave. -/
theorem mem_queuedReads {f : RegFile} {ws : List CmdWord} {a : Nat} :
    a ∈ queuedReads f ws ↔ ∃ before after x y, ws = before ++ encode (.convert x y) :: after ∧
      a ∈ convertReads (before.foldl cfgAfter f) x y := by
  induction ws generalizing f with
  | nil => simp [queuedReads]
  | cons w ws ih =>
    rw [queuedReads_cons_cfgAfter, List.mem_append, mem_queuedReads_singleton, ih]
    constructor
    · rintro (⟨x, y, rfl, ha⟩ | ⟨before, after, x, y, rfl, ha⟩)
      · exact ⟨[], ws, x, y, rfl, ha⟩
      · exact ⟨w :: before, after, x, y, rfl, ha⟩
    · rintro ⟨_ | ⟨v, before⟩, after, x, y, hws, ha⟩
      · obtain ⟨rfl, rfl⟩ := List.cons_eq_cons.mp hws
        exact .inl ⟨x, y, rfl, ha⟩
      · obtain ⟨rfl, rfl⟩ := List.cons_eq_cons.mp hws
        exact .inr ⟨before, after, x, y, rfl, ha⟩

theorem hostMemory_of_mem {a : Word} {s : State} (h : a.toNat ∈ queuedReads s.cfg s.cmdQueue) (r : MemReply) :
    hostMemory a r s = .refused .planeWriteDuringConvert := by
  rw [hostMemory, if_pos h]

theorem hostMemory_of_not_mem {a : Word} {s : State} (h : a.toNat ∉ queuedReads s.cfg s.cmdQueue) (r : MemReply) :
    hostMemory a r s = .next (setReply a r s) := by
  rw [hostMemory, if_neg h]

/-! ### A sequence of moves -/

/-- A move of the host, the platform or the converter that writes no memory. -/
def Event.writesNoMemory (e : Event) : Bool :=
  match e with
  | .memory _ _ => false
  | _ => true

theorem step_ne_refused (s : State) (r : Refusal) : step s ≠ .refused r := by
  by_cases hr : s.rspQueue.length < Config.rspDepth
  · cases hq : s.cmdQueue with
    | nil => simp [step_of_waiting (.inl hq)]
    | cons c rest =>
      rcases step_next_or_hang hq hr with ⟨t, ht⟩ | ⟨hf, -⟩
      · simp [ht]
      · simp [hf]
  · simp [step_of_waiting (.inr (not_lt.mp hr))]

theorem Event.apply_ne_refused {e : Event} (he : e.writesNoMemory = true) (s : State) (r : Refusal) :
    e.apply s ≠ .refused r := by
  cases e with
  | execute => exact step_ne_refused s r
  | memory a q => cases he
  | offer _ | take | reset =>
    intro h
    cases h

/-- A move that writes no memory does beside another memory what it does beside its own, where the two answer alike what
the queue reads. -/
theorem Event.apply_withMemory {e : Event} (he : e.writesNoMemory = true) (s : State) (m : SourceMemory)
    (h : ∀ a ∈ queuedReads s.cfg s.cmdQueue, m.memRead a = s.memRead a) :
    e.apply { s with toSourceMemory := m } = withMemory m (e.apply s) := by
  cases e with
  | execute => exact step_withMemory s m h
  | memory a q => cases he
  | offer w =>
    by_cases hroom : s.cmdQueue.length < Config.reqDepth
    · rw [Event.apply, Event.apply, accept_of_room hroom, accept_of_room (s := { s with toSourceMemory := m }) hroom]
      rfl
    · have hfull : Config.reqDepth ≤ s.cmdQueue.length := not_lt.mp hroom
      rw [Event.apply, Event.apply, accept_of_full hfull, accept_of_full (s := { s with toSourceMemory := m }) hfull]
      rfl
  | take =>
    simp only [Event.apply, Machine.take]
    split <;> rfl
  | reset => rfl

/-- A move that writes no memory leaves it as it was (R53, R64, R230). -/
theorem Event.apply_next_toSourceMemory {e : Event} (he : e.writesNoMemory = true) {s t : State}
    (h : e.apply s = .next t) : t.toSourceMemory = s.toSourceMemory := by
  rcases Event.apply_next_cases h with
    rfl | ⟨w, -, -, rfl⟩ | ⟨-, hstep⟩ | ⟨r, rest, -, -, rfl⟩ | ⟨-, rfl⟩ | ⟨a, r, rfl, -⟩
  · rfl
  · rfl
  · exact step_next_toSourceMemory hstep
  · rfl
  · rfl
  · cases he

/-- The outcome of a sequence of moves after a move in which the host took `q`. -/
def afterTaking (q : List RspWord) :
    Host.Outcome (List RspWord × State) Fault Refusal → Host.Outcome (List RspWord × State) Fault Refusal
  | .next (rs, t) => .next (q ++ rs, t)
  | .fault r => .fault r
  | .refused r => .refused r

theorem runEvents_cons_of_next {e : Event} {s s' : State} (h : e.apply s = .next s') (es : List Event) :
    runEvents (e :: es) s = afterTaking (e.taken s) (runEvents es s') := by
  simp only [runEvents, h]
  cases runEvents es s' <;> rfl

theorem runEvents_cons_next {e : Event} {es : List Event} {s t : State} {rs : List RspWord}
    (h : runEvents (e :: es) s = .next (rs, t)) :
    ∃ s' rs', e.apply s = .next s' ∧ runEvents es s' = .next (rs', t) ∧ rs = e.taken s ++ rs' := by
  cases he : e.apply s with
  | fault r => simp [runEvents, he] at h
  | refused r => simp [runEvents, he] at h
  | next s' =>
    rw [runEvents_cons_of_next he] at h
    cases hes : runEvents es s' with
    | fault r => simp [hes, afterTaking] at h
    | refused r => simp [hes, afterTaking] at h
    | next p =>
      simp only [hes, afterTaking, Host.Outcome.next.injEq, Prod.mk.injEq] at h
      obtain ⟨rfl, rfl⟩ := h
      exact ⟨s', p.1, rfl, hes, rfl⟩

theorem runReads_cons_of_next {e : Event} {s s' : State} (h : e.apply s = .next s') (es : List Event) :
    runReads (e :: es) s = queuedReads s.cfg s.cmdQueue ++ runReads es s' := by
  simp only [runReads, h]

theorem mem_runReads_of_mem_queuedReads {es : List Event} {s : State} {k : Nat}
    (h : k ∈ queuedReads s.cfg s.cmdQueue) : k ∈ runReads es s := by
  cases es with
  | nil => exact h
  | cons e es => exact List.mem_append_left _ h

/-- The premise of R235 holds of what is left of a pass after a move of it. -/
theorem planesImmutable_tail {e : Event} {es : List Event} {s s' : State} (hp : planesImmutable (e :: es) s)
    (h : e.apply s = .next s') : planesImmutable es s' := fun a r hmem hread =>
  hp a r (List.mem_cons_of_mem e hmem) (by rw [runReads_cons_of_next h]; exact List.mem_append_right _ hread)

/-- Under the premise of R235 every write of a pass is made. -/
theorem apply_memory_of_planesImmutable {a : Word} {r : MemReply} {es : List Event} {s : State}
    (hp : planesImmutable (.memory a r :: es) s) : Event.apply (.memory a r) s = .next (setReply a r s) :=
  hostMemory_of_not_mem (fun hread => hp a r List.mem_cons_self (mem_runReads_of_mem_queuedReads hread)) r

/-- A move of a pass under the premise of R235 is refused by nothing. -/
theorem apply_ne_refused_of_planesImmutable {e : Event} {es : List Event} {s : State}
    (hp : planesImmutable (e :: es) s) (r : Refusal) : e.apply s ≠ .refused r := by
  by_cases he : e.writesNoMemory = true
  · exact Event.apply_ne_refused he s r
  · cases e with
    | memory a q => simp [apply_memory_of_planesImmutable hp]
    | _ => exact absurd rfl he

theorem runEvents_ne_refused {es : List Event} {s : State} (hp : planesImmutable es s) (r : Refusal) :
    runEvents es s ≠ .refused r := by
  induction es generalizing s with
  | nil => simp [runEvents]
  | cons e es ih =>
    cases he : e.apply s with
    | fault f => simp [runEvents, he]
    | refused q => exact absurd he (apply_ne_refused_of_planesImmutable hp q)
    | next s' =>
      have hrest := ih (planesImmutable_tail hp he)
      rw [runEvents_cons_of_next he]
      cases hes : runEvents es s' with
      | next p => simp [afterTaking]
      | fault f => simp [afterTaking]
      | refused q =>
        rw [hes] at hrest
        exact hrest

/-- A pass under the premise of R235 is the same pass without its writes, beside any memory that answers what the pass
reads as the pass's own memory does at the start (R72 item 4). -/
theorem runEvents_filter_writesNoMemory {es : List Event} {s t : State} {rs : List RspWord} {m : SourceMemory}
    (hwf : Memory.wf s.mem s.unanswered) (hp : planesImmutable es s)
    (hm : ∀ k ∈ runReads es s, m.memRead k = s.memRead k) (h : runEvents es s = .next (rs, t)) :
    runEvents (es.filter Event.writesNoMemory) { s with toSourceMemory := m } =
      .next (rs, { t with toSourceMemory := m }) := by
  induction es generalizing s rs with
  | nil =>
    cases h
    rfl
  | cons e es ih =>
    obtain ⟨s', rs', he, hes, rfl⟩ := runEvents_cons_next h
    have hp' := planesImmutable_tail hp he
    rw [runReads_cons_of_next he] at hm
    have hreads : ∀ k ∈ runReads es s', m.memRead k = s.memRead k := fun k hk => hm k (List.mem_append_right _ hk)
    by_cases hw : e.writesNoMemory = true
    · have hmem := Event.apply_next_toSourceMemory hw he
      have happly := Event.apply_withMemory hw s m fun k hk => hm k (List.mem_append_left _ hk)
      rw [he, withMemory] at happly
      have hrest := ih (s := s') (by rw [hmem]; exact hwf) hp' (by rw [hmem]; exact hreads) hes
      rw [List.filter_cons_of_pos hw, runEvents_cons_of_next happly, hrest]
      cases e <;> rfl
    · cases e with
      | memory a r =>
        cases (apply_memory_of_planesImmutable hp).symm.trans he
        have hother : ∀ k ∈ runReads es (setReply a r s), k ≠ a.toNat := by
          rintro k hk rfl
          exact hp a r List.mem_cons_self (by rw [runReads_cons_of_next he]; exact List.mem_append_right _ hk)
        have hrest := ih (setReply_wf a r s hwf) hp'
          (fun k hk => by rw [hreads k hk, memRead_setReply a r hwf, if_neg (hother k hk)]) hes
        rw [List.filter_cons_of_neg hw]
        simpa [Event.taken] using hrest
      | _ => exact absurd rfl hw

/-! ### The statements -/

/-- Settles O58: an address is its number. -/
theorem memoryAnswersLastWrite : Obligations.MemoryAnswersLastWrite := by
  intro s a b r hwf
  simp only [memRead_setReply a r hwf, BitVec.toNat_inj]

/-- Settles O59: the addresses barred are those that the queue reads. -/
theorem planesAreImmutableDuringConvert : Obligations.PlanesAreImmutableDuringConvert := by
  intro s a r barred
  have hbarred : barred ↔ a.toNat ∈ queuedReads s.cfg s.cmdQueue := by
    simp only [mem_queuedReads, mem_convertReads]
    constructor
    · rintro ⟨before, after, x, y, f, hq, rfl, hr, ha⟩
      exact ⟨before, after, x, y, hq, hr, ha⟩
    · rintro ⟨before, after, x, y, hq, hr, ha⟩
      exact ⟨before, after, x, y, _, hq, rfl, hr, ha⟩
  refine ⟨fun hb => hostMemory_of_mem (hbarred.mp hb) r, fun hb => ⟨?_, setReply_toBlock a r s⟩⟩
  exact hostMemory_of_not_mem (mt hbarred.mpr hb) r

/-- Settles O60: beside the memory of its start the pass without its writes hands out the same responses. -/
theorem passReadsOneSnapshot : Obligations.PassReadsOneSnapshot := by
  intro es s hwf hp
  refine ⟨fun rs t h => ?_, runEvents_ne_refused hp _⟩
  exact ⟨_, runEvents_filter_writesNoMemory (m := s.toSourceMemory) hwf hp (fun _ _ => rfl) h, rfl, rfl⟩

end Sys2Proof.Machine
